-- ==== Sys2Proof/Word.lean ====
section
/-! DEFINITION. The words the block handles: bytes, the 64-bit request word, and the level of a line. -/

namespace Sys2Proof

/-- A `u8` (R12), one byte of the framebuffer or of the transport. -/
abbrev Byte := BitVec 8

/-- A `u16` (R12), a pixel coordinate in a request. -/
abbrev Coord := BitVec 16

/-- A request word (R71): every request is one word of 64 bits. -/
abbrev RequestWord := BitVec 64

/-- The level of an interface line, in the set of levels 0 and 1 (R30). -/
inductive Level where
  | low
  | high
  deriving DecidableEq, Repr, Inhabited

/-- `NOT` of a level, as in `CS <- NOT CS_ACTIVE_LEVEL` (R141). -/
def Level.not : Level → Level
  | .low => .high
  | .high => .low

end Sys2Proof
end

