-- ==== Sys2Proof/Syntax.lean ====
section
/-! DEFINITION. The twelve operations (R70), one constructor for each row of spec/opcode_table.json, their names and
their formats (R71). -/

namespace Sys2Proof

/-- A request with its operands, in the operand order of R85. The operands have the widths of R71, so every term is in
range. -/
inductive Instr where
  | quantize (r g b : Byte) (x y : Coord)
  | packPixel (r g b : Byte) (x y : Coord)
  | packIndex (idx : BitVec 2) (x y : Coord)
  | packPad (x y : Coord)
  | fbAlloc
  | fbDiscard
  | resetPanel
  | initializePanel
  | writeFramebuffer
  | refreshPanel
  | sleepPanel
  | clearPanel (color : Byte)
  deriving DecidableEq, Repr, Inhabited

/-- The twelve operations without their operands (R70). -/
inductive Operation where
  | quantize
  | packPixel
  | packIndex
  | packPad
  | fbAlloc
  | fbDiscard
  | resetPanel
  | initializePanel
  | writeFramebuffer
  | refreshPanel
  | sleepPanel
  | clearPanel
  deriving DecidableEq, Repr, Inhabited

/-- The five request formats (R71). -/
inductive Format where
  | rgbxy
  | ixy
  | xy
  | color
  | none
  deriving DecidableEq, Repr, Inhabited

/-- The operation a request asks for. -/
def Instr.operation : Instr → Operation
  | .quantize _ _ _ _ _ => .quantize
  | .packPixel _ _ _ _ _ => .packPixel
  | .packIndex _ _ _ => .packIndex
  | .packPad _ _ => .packPad
  | .fbAlloc => .fbAlloc
  | .fbDiscard => .fbDiscard
  | .resetPanel => .resetPanel
  | .initializePanel => .initializePanel
  | .writeFramebuffer => .writeFramebuffer
  | .refreshPanel => .refreshPanel
  | .sleepPanel => .sleepPanel
  | .clearPanel _ => .clearPanel

/-- The mnemonic of R70 and R85. -/
def Operation.mnemonic : Operation → String
  | .quantize => "QUANTIZE"
  | .packPixel => "PACK_PIXEL"
  | .packIndex => "PACK_INDEX"
  | .packPad => "PACK_PAD"
  | .fbAlloc => "FB_ALLOC"
  | .fbDiscard => "FB_DISCARD"
  | .resetPanel => "RESET"
  | .initializePanel => "INITIALIZE"
  | .writeFramebuffer => "WRITE_FRAMEBUFFER"
  | .refreshPanel => "REFRESH"
  | .sleepPanel => "SLEEP"
  | .clearPanel => "CLEAR"

/-- The format of each operation (R71). -/
def Operation.format : Operation → Format
  | .quantize => .rgbxy
  | .packPixel => .rgbxy
  | .packIndex => .ixy
  | .packPad => .xy
  | .clearPanel => .color
  | .fbAlloc | .fbDiscard | .resetPanel | .initializePanel | .writeFramebuffer | .refreshPanel | .sleepPanel => .none

end Sys2Proof
end

