-- ==== Sys2Proof/WellFormed.lean ====
section
/-! DEFINITION. Which request words are well formed, field by field (R80, R81), written without the decoder's masks.
A term of `Instr` needs no check: its operands have the widths of R71 by their types. -/

namespace Sys2Proof

/-- The operation an opcode `OP = q[63:60]` selects, none for the reserved values 0x0, 0x7, 0xE and 0xF (R70, R80). -/
def operationOfOpcode (op : BitVec 4) : Option Operation :=
  match op.toNat with
  | 0x1 => some .quantize
  | 0x2 => some .packPixel
  | 0x3 => some .packIndex
  | 0x4 => some .packPad
  | 0x5 => some .fbAlloc
  | 0x6 => some .fbDiscard
  | 0x8 => some .resetPanel
  | 0x9 => some .initializePanel
  | 0xA => some .writeFramebuffer
  | 0xB => some .refreshPanel
  | 0xC => some .sleepPanel
  | 0xD => some .clearPanel
  | _ => none

/-- The fields a format reserves are zero (R71, R81): bits 59:56, 59:34, 59:32, 59:8 or 59:0. R81's last
sentence names `NOT mask`, which within bits 59..0 is the operands; the model takes the mask's own bits there (log 22). -/
def reservedClear (f : Format) (q : RequestWord) : Bool :=
  match f with
  | .rgbxy => q.extractLsb' 56 4 == 0#4
  | .ixy => q.extractLsb' 34 26 == 0#26
  | .xy => q.extractLsb' 32 28 == 0#28
  | .color => q.extractLsb' 8 52 == 0#52
  | .none => q.extractLsb' 0 60 == 0#60

/-- The opcode check of R80. -/
def opcodeAssigned (q : RequestWord) : Bool := (operationOfOpcode (q.extractLsb' 60 4)).isSome

/-- A well-formed request word: an assigned opcode (R80) and no nonzero reserved bit (R81). -/
def wellFormedRequest (q : RequestWord) : Bool :=
  match operationOfOpcode (q.extractLsb' 60 4) with
  | some op => reservedClear op.format q
  | none => false

end Sys2Proof
end

