-- ==== Sys2Proof/Decode.lean ====
section
/-! DEFINITION. The decoder (R84), total on all 64-bit words, and after it the encoder (R70, R71). -/

namespace Sys2Proof

/-- One row of the opcode table: the mask, the match, and how the operands are assembled (R72 to R76). -/
structure OpcodeRow where
  operation : Operation
  mask : RequestWord
  pattern : RequestWord
  build : RequestWord → Instr

/-- `R = q[55:48]` (R72). -/
def fieldR (q : RequestWord) : Byte := q.extractLsb' 48 8
/-- `G = q[47:40]` (R72). -/
def fieldG (q : RequestWord) : Byte := q.extractLsb' 40 8
/-- `B = q[39:32]` (R72). -/
def fieldB (q : RequestWord) : Byte := q.extractLsb' 32 8
/-- `IDX = q[33:32]` (R73). -/
def fieldIdx (q : RequestWord) : BitVec 2 := q.extractLsb' 32 2
/-- `Y = q[31:16]` (R72). -/
def fieldY (q : RequestWord) : Coord := q.extractLsb' 16 16
/-- `X = q[15:0]` (R72). -/
def fieldX (q : RequestWord) : Coord := q.extractLsb' 0 16
/-- `COLOR = q[7:0]` (R75). -/
def fieldColor (q : RequestWord) : Byte := q.extractLsb' 0 8

/-- The opcode table, row by row as spec/opcode_table.json has it (R84). -/
def opcodeTable : List OpcodeRow :=
  [ ⟨.quantize, 0xFF00000000000000, 0x1000000000000000,
      fun q => .quantize (fieldR q) (fieldG q) (fieldB q) (fieldX q) (fieldY q)⟩,
    ⟨.packPixel, 0xFF00000000000000, 0x2000000000000000,
      fun q => .packPixel (fieldR q) (fieldG q) (fieldB q) (fieldX q) (fieldY q)⟩,
    ⟨.packIndex, 0xFFFFFFFC00000000, 0x3000000000000000, fun q => .packIndex (fieldIdx q) (fieldX q) (fieldY q)⟩,
    ⟨.packPad, 0xFFFFFFFF00000000, 0x4000000000000000, fun q => .packPad (fieldX q) (fieldY q)⟩,
    ⟨.fbAlloc, 0xFFFFFFFFFFFFFFFF, 0x5000000000000000, fun _ => .fbAlloc⟩,
    ⟨.fbDiscard, 0xFFFFFFFFFFFFFFFF, 0x6000000000000000, fun _ => .fbDiscard⟩,
    ⟨.resetPanel, 0xFFFFFFFFFFFFFFFF, 0x8000000000000000, fun _ => .resetPanel⟩,
    ⟨.initializePanel, 0xFFFFFFFFFFFFFFFF, 0x9000000000000000, fun _ => .initializePanel⟩,
    ⟨.writeFramebuffer, 0xFFFFFFFFFFFFFFFF, 0xA000000000000000, fun _ => .writeFramebuffer⟩,
    ⟨.refreshPanel, 0xFFFFFFFFFFFFFFFF, 0xB000000000000000, fun _ => .refreshPanel⟩,
    ⟨.sleepPanel, 0xFFFFFFFFFFFFFFFF, 0xC000000000000000, fun _ => .sleepPanel⟩,
    ⟨.clearPanel, 0xFFFFFFFFFFFFFF00, 0xD000000000000000, fun q => .clearPanel (fieldColor q)⟩ ]

/-- Why a word is no request (R84): its opcode is reserved (R80), or a bit its format reserves is set (R81). -/
inductive DecodeError where
  | reservedOpcode
  | reservedBits
  deriving DecidableEq, Repr

/-- `(q AND row.mask) == row.match` (R84). -/
def OpcodeRow.matches (row : OpcodeRow) (q : RequestWord) : Bool := q &&& row.mask == row.pattern

/-- The decoder of R84. -/
def decode (q : RequestWord) : Except DecodeError Instr :=
  match opcodeTable.find? (·.matches q) with
  | some row => .ok (row.build q)
  | none => .error (if opcodeAssigned q then .reservedBits else .reservedOpcode)

/-- `decode` without the reason for a refusal. -/
def decode? (q : RequestWord) : Option Instr := (decode q).toOption

/-- `OP` of each operation (R70). -/
def Operation.opcode : Operation → BitVec 4
  | .quantize => 0x1
  | .packPixel => 0x2
  | .packIndex => 0x3
  | .packPad => 0x4
  | .fbAlloc => 0x5
  | .fbDiscard => 0x6
  | .resetPanel => 0x8
  | .initializePanel => 0x9
  | .writeFramebuffer => 0xA
  | .refreshPanel => 0xB
  | .sleepPanel => 0xC
  | .clearPanel => 0xD

/-- The low 60 bits of the request word: each format's fields in their places, zero elsewhere (R71). F-C has 52 zero
bits, where R71 writes "48 zero bits" (log 23). -/
def encodeFields : Instr → BitVec 60
  | .quantize r g b x y => 0#4 ++ r ++ g ++ b ++ y ++ x
  | .packPixel r g b x y => 0#4 ++ r ++ g ++ b ++ y ++ x
  | .packIndex idx x y => 0#26 ++ idx ++ y ++ x
  | .packPad x y => 0#28 ++ y ++ x
  | .clearPanel color => 0#52 ++ color
  | .fbAlloc | .fbDiscard | .resetPanel | .initializePanel | .writeFramebuffer | .refreshPanel | .sleepPanel => 0#60

/-- The request word of an instruction (R70, R71). -/
def encode (i : Instr) : RequestWord := i.operation.opcode ++ encodeFields i

/-- What the decoder reads from a table word of `nbits` bits, every bit above them zero. A request is one 64-bit word
(R83), so a longer one is none. -/
def decodeTableWord (nbits w : Nat) : Option Instr :=
  if nbits ≤ 64 then decode? (BitVec.ofNat 64 (w % 2 ^ nbits)) else none

end Sys2Proof
end

