-- ==== Sys2Proof/Config.lean ====
section
/-! DEFINITION. What an implementation fixes (R7, R28, R233): the geometry, the OPEN parameters as one plain record, and
the free values, which are constants without a body. -/

namespace Sys2Proof

/-! ### Fixed geometry (R7) -/

/-- `W`, the panel width in pixels (R7). -/
abbrev W : Nat := 168
/-- `H`, the panel height in pixels (R7). -/
abbrev H : Nat := 400
/-- `NPIX = W*H` (R7). -/
abbrev NPIX : Nat := 67200
/-- `NFB = W*H/4`, the framebuffer's length in bytes (R7, R50). -/
abbrev NFB : Nat := 16800
/-- `BPR = W/4`, the framebuffer bytes of one row (R7, R51). -/
abbrev BPR : Nat := 42
/-- `DITHER_FACTOR` (R7, R102). It enters through its table `THRESH` alone; another factor's table is `Config.thresh`
(D3; log 17). -/
abbrev ditherFactor : Int := 32

/-! ### The types of the parameters -/

/-- One RGB triple of the palette (R28). -/
structure Rgb where
  r : Byte
  g : Byte
  b : Byte
  deriving DecidableEq, Repr, Inhabited

/-- `PALETTE[0..3]` in the order black, white, yellow, red (R28). -/
structure Palette where
  black : Rgb
  white : Rgb
  yellow : Rgb
  red : Rgb
  deriving DecidableEq, Repr, Inhabited

/-- `THRESH[0..3]`, four signed integers (R28, R102). -/
structure Thresholds where
  t0 : Int
  t1 : Int
  t2 : Int
  t3 : Int
  deriving DecidableEq, Repr, Inhabited

/-- A command entry: one command byte, then zero or more data bytes (R143, R160). -/
structure Entry where
  cmd : Byte
  data : List Byte
  deriving DecidableEq, Repr, Inhabited

/-- `BUSY_TIMEOUT_POLLS`: `INF`, or a positive number of samples (R7, R146). -/
inductive PollLimit where
  | inf
  | polls (k : Nat) (pos : 0 < k)
  deriving DecidableEq, Repr, Inhabited

/-- `SERIAL_BIT_ORDER` (R7, R142). -/
inductive BitOrder where
  | msbFirst
  | lsbFirst
  deriving DecidableEq, Repr, Inhabited

/-- `SRC_PIXEL_ORDER`, the order of the three channels in a source pixel (R8(c), D33); the feed alone reads it. -/
inductive ChannelOrder where
  | bgr
  | rgb
  | brg
  | gbr
  | grb
  | rbg
  deriving DecidableEq, Repr, Inhabited

/-- The parameters of R7 that the source leaves OPEN, fixed at construction and never written afterwards (R28, R233).
Where R160 fixes how many data bytes an entry has, the fields have that shape: write RAM has none of its own, display
refresh has its trigger byte, power off has its parameter. -/
structure Config where
  palette : Palette
  thresh : Thresholds
  initSeq : List Entry
  startTx : Entry
  writeRamCmd : Byte
  refreshCmd : Byte
  refreshTrigger : Byte
  powerOffCmd : Byte
  powerOffParam : Byte
  deepSleep : Entry
  busyDoneLevel : Level
  busyTimeout : PollLimit
  csActiveLevel : Level
  rstAssertLevel : Level
  serialBitOrder : BitOrder
  allocMayFail : Bool
  mirrorX : Bool
  srcPixelOrder : ChannelOrder
  deriving DecidableEq, Repr, Inhabited

namespace Config

/-! ### Free values: nothing in Lean evaluates them or proves a value of them -/

/-- The configuration the block was built with (R230 "the configuration values", R233). Log 6. -/
opaque installed : Config

/-- The level the panel presents at the `n`-th BUSY sample since power-on: a free input of the step that takes the
sample, under no law (R147, I9). Log 4. -/
opaque busySample : Nat → Level

/-- The environment's answer to the `n`-th allocation draw since power-on, a free Boolean (R123, I13). Log 5. -/
opaque allocDraw : Nat → Bool

/-- The byte drawn for address `a` in the `gen`-th contents of the framebuffer: generation 0 is the power-on contents
(R230, I6), each successful FB_ALLOC draws the next (R122, I5). Log 3. -/
opaque freshByte : Nat → Nat → Byte

end Config

end Sys2Proof
end

