-- ==== Sys2Proof/Machine/State.lean ====
section
/-! DEFINITION. The state of the block (R34) with the ghosts of R33, as plain data, and the state at power-on (R230). -/

namespace Sys2Proof.Machine

/-- `DSTATE` (R22). The encodings 6 and 7 are never written, so they are no constructor. -/
inductive DState where
  | uninitialized
  | awaitingReset
  | ready
  | transmitting
  | refreshing
  | sleeping
  deriving DecidableEq, Repr

/-- The status of a response, and what `ERR` holds (R26, R79). The codes 8..15 are never returned. -/
inductive Status where
  | ok
  | illegalOperation
  | protocolState
  | fbNotOwned
  | fbAlreadyOwned
  | coordinate
  | allocationError
  | deviceTimeout
  deriving DecidableEq, Repr

/-- The reset line's two levels in the document's words (R140, R144). -/
inductive RstWord where
  | asserted
  | deasserted
  deriving DecidableEq, Repr

/-- A bus event (R140). -/
inductive BusEvent where
  | rst (w : RstWord)
  | delay (ms : Nat)
  | cmd (b : Byte)
  | data (b : Byte)
  | busy (l : Level)
  deriving DecidableEq, Repr

/-- Where a driver operation is held in a busy wait: the operation, and which of its waits (R166, R168, R171, R205).
CLEAR keeps its operand, which its request word holds. Log 11. -/
inductive HoldPoint where
  | writeFramebuffer
  | refreshFirst
  | refreshSecond
  | clearFirst (color : Byte)
  | clearSecond (color : Byte)
  | clearThird (color : Byte)
  deriving DecidableEq, Repr

/-- The record of `INFLIGHT` (R29): the held operation and its wait, the index of its next bus event in the operation's
own events (log 10), and the BUSY samples taken in this wait. -/
structure Inflight where
  point : HoldPoint
  step : Nat
  polls : Nat
  deriving DecidableEq, Repr

/-- The response to a request (R78). -/
structure Response where
  status : Status
  result : BitVec 2
  resultValid : Bool
  deriving DecidableEq, Repr

/-- What a fault or an error records beside the request and the status (R201, R206; log 13). -/
inductive ErrInfo where
  | request (q : RequestWord)
  | operationState (op : Operation) (d : DState)
  | operation (op : Operation)
  | coordinates (x y : Coord)
  | wait (number : Nat)
  | nothing
  deriving DecidableEq, Repr

/-- One entry of `ERRLOG` (R201, R203). -/
structure ErrEntry where
  request : RequestWord
  status : Status
  info : ErrInfo
  deriving DecidableEq, Repr

/-- Framebuffer bytes by address, in the canonical form of `Memory.wf`. -/
abbrev Memory := List Host.Cell

/-- The state: the tuple of R34, the tables of R28 as the read-only `cfg`, the ghosts of R33, and the model's own fields. -/
structure State where
  /-- `DSTATE` (R22). -/
  dstate : DState
  /-- `FB_OWNED` (R24). -/
  fbOwned : Bool
  /-- `RES` (R25). -/
  res : BitVec 2
  /-- `RES_VALID` (R25). -/
  resValid : Bool
  /-- `ERR` (R26). -/
  err : Status
  /-- `FB` (R27, R50): the bytes that differ from the drawn contents. -/
  fb : Memory
  /-- `INFLIGHT` (R29). -/
  inflight : Option Inflight
  /-- `RST` (R30). -/
  rst : Level
  /-- `DC` (R30). -/
  dc : Level
  /-- `CS` (R30). -/
  cs : Level
  /-- The read-only tables and parameters (R28, R7, R233). No operation writes it. Log 6. -/
  cfg : Config
  /-- Ghost `TRACE` (R33), oldest event first. -/
  trace : List BusEvent
  /-- Ghost `FBW` (R33), bit `x + y*W` for pixel `(x, y)`. -/
  fbw : BitVec NPIX
  /-- Ghost `ERRLOG` (R33), oldest entry first. -/
  errlog : List ErrEntry
  /-- Ghost `FAULTED` (R33). -/
  faulted : Bool
  /-- The model's own: the request words the host has still to present, the presented one first (R77). Log 7. -/
  requests : List RequestWord
  /-- The model's own: the responses given, oldest first (R78). Log 12. -/
  responses : List Response
  /-- The model's own: how many BUSY samples were taken; it selects the next free sample. Log 4. -/
  busySamples : Nat
  /-- The model's own: how many allocation draws were taken; it selects the next free draw. Log 5. -/
  allocDraws : Nat
  /-- The model's own: which contents of the framebuffer are the drawn ones. Log 3. -/
  fbGen : Nat
  deriving DecidableEq, Repr

/-- What an observation answers when there is nothing to observe. No step of the machine raises one: every fault of the
spec (R201) is a next state, since "the hardware itself carries on" (R202; log 8). -/
inductive Fault where
  /-- Raised by `State.readRes` alone: RES is read while RES_VALID = 0 (R25, I14). Safe: no operation reads RES. -/
  | resNotValid
  /-- Raised by `State.readFb` alone: an address beyond the 16800 bytes of FB (R50). Safe: no operation forms one (R56). -/
  | fbAddress (a : Nat)
  deriving DecidableEq, Repr

/-- Why an instruction has no meaning in the model. -/
inductive Refusal where
  /-- Raised by no arm of `exec`: every operation has its meaning. Safe: a refused step claims nothing. -/
  | notModelled (mnemonic : String)
  deriving DecidableEq, Repr

/-- The state at power-on, before the first request (R230). The levels of `RST`, `DC` and `CS` and the value of `RES`
are the model's (DESIGN CHOICE, unsafe: log 1, log 2); the framebuffer lists nothing, so each byte is the drawn one of
generation 0 (log 3); the tables are the installed configuration (log 6); no request is presented (log 7). -/
def State.reset : State where
  dstate := .uninitialized
  fbOwned := false
  res := 0#2
  resValid := false
  err := .ok
  fb := []
  inflight := none
  rst := .low
  dc := .low
  cs := .low
  cfg := Config.installed
  trace := []
  fbw := 0#NPIX
  errlog := []
  faulted := false
  requests := []
  responses := []
  busySamples := 0
  allocDraws := 0
  fbGen := 0

end Sys2Proof.Machine
end

