-- ==== Sys2Proof/Machine/Flags.lean ====
section
/-! DEFINITION. The block has no condition codes (R31). Here are the encodings of its status registers and the two
classes of status that the sticky bit `FAULTED` tells apart (R22, R79, R200). -/

namespace Sys2Proof.Machine

/-- `DSTATE[2:0]` (R22, D19). -/
def DState.code : DState → BitVec 3
  | .uninitialized => 0
  | .awaitingReset => 1
  | .ready => 2
  | .transmitting => 3
  | .refreshing => 4
  | .sleeping => 5

/-- The 4-bit status code (R26, R79). -/
def Status.code : Status → BitVec 4
  | .ok => 0
  | .illegalOperation => 1
  | .protocolState => 2
  | .fbNotOwned => 3
  | .fbAlreadyOwned => 4
  | .coordinate => 5
  | .allocationError => 6
  | .deviceTimeout => 7

/-- The faults, codes 1 to 5; codes 6 and 7 are errors (R200). -/
def Status.isFault (st : Status) : Bool := 1 ≤ st.code.toNat && st.code.toNat ≤ 5

/-- The new value of `FAULTED` when a response carries `st`: sticky, set by a fault only (R33, R203). -/
def faultedAfter (faulted : Bool) (st : Status) : Bool := faulted || st.isFault

end Sys2Proof.Machine
end

