-- ==== Sys2Proof/Machine/Operands.lean ====
section
/-! DEFINITION. Operand assembly beyond the decoder's fields: pixel locations (R51), the bounds of coordinates (R120),
the request a held operation came from, and the bits of a byte on the wire (R141). -/

namespace Sys2Proof.Machine

/-- `byteOffset(x, y) = (x + y*W) / 4` (R51). -/
def byteOffset (x y : Nat) : Nat := (x + y * W) / 4

/-- `bitShift(x) = (3 - (x mod 4)) * 2` (R51). -/
def bitShift (x : Nat) : Nat := (3 - x % 4) * 2

/-- The pixel's number in `FBW`, `x + y*W` (R33, R121). -/
def pixelNumber (x y : Nat) : Nat := x + y * W

/-- `0 ≤ x < W` and `0 ≤ y < H` (R51); the pack operations fault COORDINATE otherwise (R120). -/
def onPanel (x y : Nat) : Bool := x < W && y < H

/-- The byte with the pixel's two bits cleared and then set to `idx` (R52, R121). -/
def setPixelBits (v : Byte) (shift : Nat) (idx : BitVec 2) : Byte :=
  (v &&& ~~~(3#8 <<< shift)) ||| (idx.setWidth 8 <<< shift)

/-- The two bits of a byte at a pixel's shift (R51, R66). -/
def getPixelBits (v : Byte) (shift : Nat) : BitVec 2 := (v >>> shift).setWidth 2

/-- The instruction a hold belongs to (R29). -/
def HoldPoint.instr : HoldPoint → Instr
  | .writeFramebuffer => .writeFramebuffer
  | .refreshFirst | .refreshSecond => .refreshPanel
  | .clearFirst c | .clearSecond c | .clearThird c => .clearPanel c

/-- The number of the wait in its operation: 1, 2 or 3 (R206). -/
def HoldPoint.waitNumber : HoldPoint → Nat
  | .writeFramebuffer | .refreshFirst | .clearFirst _ => 1
  | .refreshSecond | .clearSecond _ => 2
  | .clearThird _ => 3

/-- The bits of a byte in the order they are shifted out (R141, R142). An observation: no bus event shows it. -/
def wireBits (order : BitOrder) (b : Byte) : List Bool :=
  match order with
  | .msbFirst => (List.range 8).map fun i => b.getLsbD (7 - i)
  | .lsbFirst => (List.range 8).map fun i => b.getLsbD i

/-- Whether `polls` samples not at the done level end the wait: `BUSY_TIMEOUT_POLLS != INF and polls >= BUSY_TIMEOUT_POLLS`
(R146). -/
def PollLimit.reached (limit : PollLimit) (polls : Nat) : Bool :=
  match limit with
  | .inf => false
  | .polls k _ => k ≤ polls

end Sys2Proof.Machine
end

