-- ==== Sys2Proof/Machine/Ops.lean ====
section
/-! DEFINITION. The named operations over the framebuffer and the registers, and the two ways an operation ends: a
response (R78), and `raise` (R203), which is all this block has for taking an exception. A return from one does not
exist (R210). -/

namespace Sys2Proof.Machine

/-! ### The framebuffer as a list of cells

`d` gives what an unlisted address reads as. -/

/-- The byte at `a`: the listed one, else `d a`. -/
def Memory.read (d : Nat → Byte) : Memory → Nat → Byte
  | [], a => d a
  | (b, v) :: m, a => if a = b then v else Memory.read d m a

/-- `m` without an entry for `a`. -/
def Memory.erase (m : Memory) (a : Nat) : Memory := m.filter fun c => c.1 ≠ a

/-- `m` with `(a, v)` before its first larger address. -/
def Memory.insert : Memory → Nat → Byte → Memory
  | [], a, v => [(a, v)]
  | (b, w) :: m, a, v => if a < b then (a, v) :: (b, w) :: m else (b, w) :: Memory.insert m a v

/-- Write `v` at `a`; writing what an unlisted address reads as leaves no entry. -/
def Memory.write (d : Nat → Byte) (m : Memory) (a : Nat) (v : Byte) : Memory :=
  if v = d a then Memory.erase m a else Memory.insert (Memory.erase m a) a v

/-- The addresses of the framebuffer in ascending order, `a in 0 .. NFB-1` (R50, R54). Irreducible, so that no
unification runs through all of them. -/
@[irreducible] def fbAddresses : List Nat := List.range NFB

/-- Every byte of the framebuffer holds `c` (R171). -/
def Memory.fill (d : Nat → Byte) (c : Byte) : Memory :=
  fbAddresses.filterMap fun a => if c = d a then none else some (a, c)

/-- The canonical form: addresses strictly rising and inside the framebuffer, no entry equal to what an unlisted address
reads as. -/
abbrev Memory.wf (d : Nat → Byte) (m : Memory) : Prop :=
  m.Pairwise (fun c c' => c.1 < c'.1) ∧ ∀ c ∈ m, c.1 < NFB ∧ c.2 ≠ d c.1

/-- What an unlisted address of the framebuffer reads as: the byte drawn for it in the present contents (R122, R230;
I5, I6). Log 3. -/
def State.fbDrawn (s : State) : Nat → Byte := Config.freshByte s.fbGen

/-- `MemRead(a, 1)` (R13). -/
def State.fbByte (s : State) (a : Nat) : Byte := Memory.read s.fbDrawn s.fb a

/-- `MemWrite(a, 1, v)` (R13). -/
def State.setFbByte (s : State) (a : Nat) (v : Byte) : State := { s with fb := Memory.write s.fbDrawn s.fb a v }

/-- `for a in 0 .. NFB-1: FB[a] <- c` (R171). -/
def State.fillFb (s : State) (c : Byte) : State := { s with fb := Memory.fill s.fbDrawn c }

/-- `for a in 0 .. NFB-1: FB[a] <- draw_u8()` (R122): the next drawn contents, with nothing listed. -/
def State.drawFb (s : State) : State := { s with fb := [], fbGen := s.fbGen + 1 }

/-- `FBW[p] <- 1` (R121). -/
def State.markWritten (s : State) (p : Nat) : State := { s with fbw := s.fbw ||| BitVec.twoPow NPIX p }

/-! ### Bus events -/

/-- `emit E` (R13, R140). -/
def State.emit (s : State) (e : BusEvent) : State := { s with trace := s.trace ++ [e] }

/-! ### How an operation ends -/

/-- The response of R78: `result` is the index where there is one, else 0 and not valid. -/
def responseOf (st : Status) (result : Option (BitVec 2)) : Response where
  status := st
  result := result.getD 0#2
  resultValid := result.isSome

/-- `respond(status, result)` (R78): the response is given and `ERR` takes its status. -/
def State.respond (s : State) (st : Status) (result : Option (BitVec 2)) : State :=
  { s with err := st, responses := s.responses ++ [responseOf st result] }

/-- `raise E(info)` (R203), for the request word `q`: `ERR`, `ERRLOG`, `FAULTED` for codes 1 to 5, `INFLIGHT`, and the
response. -/
def State.raise (s : State) (q : RequestWord) (st : Status) (info : ErrInfo) : State :=
  let recorded : State :=
    { s with
      errlog := s.errlog ++ [{ request := q, status := st, info := info }]
      faulted := faultedAfter s.faulted st
      inflight := none }
  recorded.respond st none

/-- The end of an operation that was held: `INFLIGHT` returns to `none` (R29) and the response is OK. -/
def State.complete (s : State) : State :=
  let ended : State := { s with inflight := none }
  ended.respond .ok none

/-- Run `body` unless a check failed; a failed check raises, with none of the operation performed (R202). -/
def State.guarded (s : State) (i : Instr) (failed : Option (Status × ErrInfo)) (body : State → State) : State :=
  match failed with
  | some (st, info) => s.raise (encode i) st info
  | none => body s

end Sys2Proof.Machine
end

