-- ==== Sys2Proof/Machine/Transport.lean ====
section
/-! DEFINITION. The transport primitives (R140 to R148) but for the busy wait's samples, which are in the driver. -/

namespace Sys2Proof.Machine

/-- `T_RST_A1` (R7, R144). -/
def rstFirstMs : Nat := 200
/-- `T_RST_D` (R7, R144). -/
def rstPulseMs : Nat := 2
/-- `T_RST_A2` (R7, R144). -/
def rstLastMs : Nat := 200
/-- `T_SLEEP_SETTLE` (R7, R169). -/
def sleepSettleMs : Nat := 2000
/-- `POLL_MS` (R7, R146). Log 16. -/
def pollMs : Nat := 5

/-- The kind of a transfer (R141). -/
inductive TransferKind where
  | command
  | data
  deriving DecidableEq, Repr

/-- The mode line: "command when asserted low, data when asserted high" (R141). -/
def TransferKind.dc : TransferKind → Level
  | .command => .low
  | .data => .high

/-- The event of a transfer (R140, R141). -/
def TransferKind.event : TransferKind → Byte → BusEvent
  | .command, b => .cmd b
  | .data, b => .data b

/-- `send(kind, b)` (R141): the mode line, chip select asserted and released, one event. The shift between the two has no
state (R34, R142; log 15, log 20). -/
def State.send (s : State) (kind : TransferKind) (b : Byte) : State :=
  let selected : State := { s with dc := kind.dc, cs := s.cfg.csActiveLevel }
  let released : State := { selected with cs := s.cfg.csActiveLevel.not }
  released.emit (kind.event b)

/-- One data transfer for each byte, in order: "no burst/batch framing" (R141). -/
def State.sendData (s : State) : List Byte → State
  | [] => s
  | b :: bs => (s.send .data b).sendData bs

/-- `send_entry(e)` (R143). -/
def State.sendEntry (s : State) (e : Entry) : State := (s.send .command e.cmd).sendData e.data

/-- The entries of a sequence, in order (R163). -/
def State.sendEntries (s : State) : List Entry → State
  | [] => s
  | e :: es => (s.sendEntry e).sendEntries es

/-- `delay(ms)` (R145). -/
def State.delay (s : State) (ms : Nat) : State := s.emit (.delay ms)

/-- The electrical level of a word for the reset line (R7, R144). -/
def rstLevel (c : Config) : RstWord → Level
  | .asserted => c.rstAssertLevel
  | .deasserted => c.rstAssertLevel.not

/-- `RST <- w; emit Rst(w)` (R144). -/
def State.driveRst (s : State) (w : RstWord) : State :=
  ({ s with rst := rstLevel s.cfg w } : State).emit (.rst w)

/-- `reset_pulse()` (R144). -/
def State.resetPulse (s : State) : State :=
  let s := (s.driveRst .asserted).delay rstFirstMs
  let s := (s.driveRst .deasserted).delay rstPulseMs
  (s.driveRst .asserted).delay rstLastMs

/-- `CMD_WRITE_RAM` as an entry: no data of its own (R160). -/
def writeRamEntry (c : Config) : Entry := ⟨c.writeRamCmd, []⟩
/-- `CMD_REFRESH` as an entry: exactly the trigger byte (R160). -/
def refreshEntry (c : Config) : Entry := ⟨c.refreshCmd, [c.refreshTrigger]⟩
/-- `CMD_POWER_OFF` as an entry: exactly its parameter (R160). -/
def powerOffEntry (c : Config) : Entry := ⟨c.powerOffCmd, [c.powerOffParam]⟩

end Sys2Proof.Machine
end

