-- ==== Sys2Proof/Machine/Driver.lean ====
section
/-! DEFINITION. The display protocol driver (R160 to R173), its busy waits (R146) and its timeout (R206). An operation
runs to its end or to the entry of a busy wait (R14); each BUSY sample is then one step (R147; log 9). -/

namespace Sys2Proof.Machine

/-- The states an operation is legal in (R23, R160(b)); RESET and the datapath operations are legal in every one. -/
def legalIn : Operation → DState → Bool
  | .initializePanel, d => d = .awaitingReset
  | .writeFramebuffer, d => d = .ready
  | .refreshPanel, d => d = .transmitting
  | .sleepPanel, d => d = .ready
  | .clearPanel, d => d = .ready
  | _, _ => true

/-- `require(S)` (R160(b)): the failed check, if it fails. -/
def stateFailure (s : State) (i : Instr) : Option (Status × ErrInfo) :=
  if legalIn i.operation s.dstate then none
  else some (.protocolState, .operationState i.operation s.dstate)

/-- Entry to a `wait_busy()` (R29, R146): the operation is held at `point` with no sample taken. `step` counts the events
the operation has emitted: `before` of them up to the state `since`, and those between `since` and here (log 10). -/
def State.holdAt (s : State) (point : HoldPoint) (before : Nat) (since : State) : State :=
  { s with
    inflight := some { point := point, step := before + (s.trace.length - since.trace.length), polls := 0 } }

/-- The bytes a transmission sends, in ascending address order (R54, R166). -/
def State.fbBytes (s : State) : List Byte := fbAddresses.map s.fbByte

/-- `transmit()` up to its wait (R166). -/
def State.transmitHead (s : State) : State := s.sendEntry s.cfg.startTx

/-- `transmit()` after its wait (R166). -/
def State.transmitTail (s : State) : State :=
  { (s.sendEntry (writeRamEntry s.cfg)).sendData s.fbBytes with fbOwned := false }

/-- `DSTATE <- d`. -/
def State.setDState (s : State) (d : DState) : State := { s with dstate := d }

/-- The operation goes on after a wait that read the done level: to its next wait, or to its end (R165 to R168, R171).
`since` is the state before the sample. -/
def State.resume (s : State) (h : Inflight) (since : State) : State :=
  match h.point with
  | .writeFramebuffer => s.transmitTail.complete
  | .refreshFirst => (s.sendEntry (powerOffEntry s.cfg)).holdAt .refreshSecond h.step since
  | .refreshSecond => (s.setDState .ready).complete
  | .clearFirst c =>
    ((s.transmitTail.setDState .refreshing).sendEntry (refreshEntry s.cfg)).holdAt (.clearSecond c) h.step since
  | .clearSecond c => (s.sendEntry (powerOffEntry s.cfg)).holdAt (.clearThird c) h.step since
  | .clearThird _ => (s.setDState .ready).complete

/-- Whether a timeout releases the framebuffer: it was moved to the driver by WRITE_FRAMEBUFFER or CLEAR (R206). -/
def timeoutReleases (op : Operation) : Bool := op = .writeFramebuffer || op = .clearPanel

/-- DEVICE_TIMEOUT in the held operation (R206). -/
def State.timeout (s : State) (h : Inflight) : State :=
  let aborted : State :=
    { s with
      fbOwned := if timeoutReleases h.point.instr.operation then false else s.fbOwned
      dstate := .uninitialized }
  aborted.raise (encode h.point.instr) .deviceTimeout (.wait h.point.waitNumber)

/-- One turn of the loop of `wait_busy()` with the sample `l` (R146). -/
def State.poll (s : State) (h : Inflight) (l : Level) : State :=
  let sampled := ({ s with busySamples := s.busySamples + 1 } : State).emit (.busy l)
  if l = s.cfg.busyDoneLevel then sampled.resume h s
  else if PollLimit.reached s.cfg.busyTimeout (h.polls + 1) then sampled.timeout h
  else
    { sampled.delay pollMs with inflight := some { h with step := h.step + 2, polls := h.polls + 1 } }

/-- RESET (R161, R162). -/
def execResetPanel (s : State) : Host.Outcome State Fault Refusal :=
  .next ((s.resetPulse.setDState .awaitingReset).respond .ok none)

/-- INITIALIZE (R163). -/
def execInitializePanel (s : State) : Host.Outcome State Fault Refusal :=
  .next (s.guarded .initializePanel (stateFailure s .initializePanel) fun s =>
    ((s.sendEntries s.cfg.initSeq).setDState .ready).respond .ok none)

/-- WRITE_FRAMEBUFFER (R165) up to its wait: the state check, the ownership check, the head of `transmit()`. -/
def execWriteFramebuffer (s : State) : Host.Outcome State Fault Refusal :=
  .next (s.guarded .writeFramebuffer
    ((stateFailure s .writeFramebuffer).or
      (if s.fbOwned then none else some (.fbNotOwned, .operation .writeFramebuffer))) fun s =>
    (s.setDState .transmitting).transmitHead.holdAt .writeFramebuffer 0 s)

/-- REFRESH (R167, R168) up to its first wait. -/
def execRefreshPanel (s : State) : Host.Outcome State Fault Refusal :=
  .next (s.guarded .refreshPanel (stateFailure s .refreshPanel) fun s =>
    ((s.setDState .refreshing).sendEntry (refreshEntry s.cfg)).holdAt .refreshFirst 0 s)

/-- SLEEP (R169). -/
def execSleepPanel (s : State) : Host.Outcome State Fault Refusal :=
  .next (s.guarded .sleepPanel (stateFailure s .sleepPanel) fun s =>
    ((((s.sendEntry (powerOffEntry s.cfg)).sendEntry s.cfg.deepSleep).delay sleepSettleMs).setDState .sleeping).respond
      .ok none)

/-- CLEAR (R171, R172) up to its first wait: the fill, whether or not a framebuffer is owned, then the head of
`transmit()`. -/
def execClearPanel (color : Byte) (s : State) : Host.Outcome State Fault Refusal :=
  .next (s.guarded (.clearPanel color) (stateFailure s (.clearPanel color)) fun s =>
    let filled : State := { s.fillFb color with fbw := BitVec.allOnes NPIX, fbOwned := true }
    (filled.setDState .transmitting).transmitHead.holdAt (.clearFirst color) 0 s)

end Sys2Proof.Machine
end

