-- ==== Sys2Proof/Machine/Quantizer.lean ====
section
/-! DEFINITION. The colour quantizer (R100 to R108): ordered dithering and the nearest of four palette entries. -/

namespace Sys2Proof.Machine

/-- The palette the spec uses by default: black, white, yellow, red at full intensity (R7, D1). -/
def defaultPalette : Palette where
  black := ⟨0, 0, 0⟩
  white := ⟨255, 255, 255⟩
  yellow := ⟨255, 255, 0⟩
  red := ⟨255, 0, 0⟩

/-- `THRESH` for `ditherFactor` (R7, R102). -/
def standardThresholds : Thresholds := ⟨-16, -6, 5, 16⟩

/-- `floor(((bay / 3) - 1/2) * factor)` over the rationals (R102), `((2*bay - 3) * factor) / 6` rounded down. It is the
table above for `ditherFactor`; for another factor the spec takes the binary64 evaluation, a table of `Config` (D3). -/
def thresholdOf (factor : Int) (bay : Nat) : Int := Int.fdiv ((2 * (bay : Int) - 3) * factor) 6

/-- `BAYER[y mod 2][x mod 2]` with `BAYER = [[0,2],[3,1]]` (R101). -/
def bayer (x y : Nat) : Fin 4 :=
  match y % 2, x % 2 with
  | 0, 0 => 0
  | 0, _ => 2
  | _, 0 => 3
  | _, _ => 1

/-- `THRESH[bay]` (R102). -/
def thresholdAt (t : Thresholds) : Fin 4 → Int
  | 0 => t.t0
  | 1 => t.t1
  | 2 => t.t2
  | 3 => t.t3

/-- `clamp(v, lo, hi)` (R12). -/
def clamp (v lo hi : Int) : Int := if v < lo then lo else if hi < v then hi else v

/-- `clamp(c + t, 0, 255)` (R103): the signed threshold is added (D2). -/
def adjust (c : Byte) (t : Int) : Int := clamp (c.toNat + t) 0 255

/-- An adjusted pixel `(r', g', b')` (R103). -/
structure Adjusted where
  r : Int
  g : Int
  b : Int
  deriving DecidableEq, Repr

/-- The three channels with one threshold, that of the position (R101 to R103). -/
def adjustPixel (t : Thresholds) (r g b : Byte) (x y : Nat) : Adjusted :=
  let v := thresholdAt t (bayer x y)
  ⟨adjust r v, adjust g v, adjust b v⟩

/-- The squared Euclidean distance to a palette entry (R104). -/
def distance (p : Adjusted) (c : Rgb) : Int :=
  (p.r - c.r.toNat) ^ 2 + (p.g - c.g.toNat) ^ 2 + (p.b - c.b.toNat) ^ 2

/-- `d < bestd`, where `none` is `+infinity` (R104). -/
def closer (d : Int) : Option Int → Bool
  | none => true
  | some bestd => d < bestd

/-- The loop of R104 over the entries still to visit: stop at distance 0, and let a strictly smaller distance win. -/
def searchFrom (p : Adjusted) : List (BitVec 2 × Rgb) → BitVec 2 → Option Int → BitVec 2
  | [], best, _ => best
  | (i, c) :: rest, best, bestd =>
    let d := distance p c
    if d = 0 then i
    else if closer d bestd then searchFrom p rest i (some d)
    else searchFrom p rest best bestd

/-- `PALETTE` with its indices, in the order the loop visits them (R28, R104). -/
def paletteEntries (c : Palette) : List (BitVec 2 × Rgb) := [(0, c.black), (1, c.white), (2, c.yellow), (3, c.red)]

/-- `Q(r, g, b, x, y)` (R100 to R104). -/
def quantizeIndex (c : Config) (r g b : Byte) (x y : Nat) : BitVec 2 :=
  searchFrom (adjustPixel c.thresh r g b x y) (paletteEntries c.palette) 0 none

/-- `RES <- idx; RES_VALID <- 1` (R105, R125). -/
def State.setRes (s : State) (idx : BitVec 2) : State := { s with res := idx, resValid := true }

/-- QUANTIZE (R105): no check beyond the decoder's, any coordinates (R72). -/
def execQuantize (r g b : Byte) (x y : Coord) (s : State) : Host.Outcome State Fault Refusal :=
  let idx := quantizeIndex s.cfg r g b x.toNat y.toNat
  .next ((s.setRes idx).respond .ok (some idx))

end Sys2Proof.Machine
end

