-- ==== Sys2Proof/Machine/Packer.lean ====
section
/-! DEFINITION. The framebuffer packer (R120 to R129). None of its operations depends on `DSTATE` or emits a bus event. -/

namespace Sys2Proof.Machine

/-- The packer's checks, in order (R120): ownership, then coordinates. -/
def packFailure (s : State) (i : Instr) (x y : Coord) : Option (Status × ErrInfo) :=
  if s.fbOwned = false then some (.fbNotOwned, .operation i.operation)
  else if onPanel x.toNat y.toNat then none
  else some (.coordinate, .coordinates x y)

/-- `pack(x, y, idx)` (R121): a read-modify-write of one byte, and the ghost bit of the pixel. -/
def State.pack (s : State) (x y : Nat) (idx : BitVec 2) : State :=
  let o := byteOffset x y
  (s.setFbByte o (setPixelBits (s.fbByte o) (bitShift x) idx)).markWritten (pixelNumber x y)

/-- PACK_INDEX (R124). -/
def execPackIndex (idx : BitVec 2) (x y : Coord) (s : State) : Host.Outcome State Fault Refusal :=
  .next (s.guarded (.packIndex idx x y) (packFailure s (.packIndex idx x y) x y) fun s =>
    (s.pack x.toNat y.toNat idx).respond .ok none)

/-- PACK_PIXEL (R125): the index is the quantizer's at the panel coordinates. -/
def execPackPixel (r g b : Byte) (x y : Coord) (s : State) : Host.Outcome State Fault Refusal :=
  .next (s.guarded (.packPixel r g b x y) (packFailure s (.packPixel r g b x y) x y) fun s =>
    let idx := quantizeIndex s.cfg r g b x.toNat y.toNat
    ((s.pack x.toNat y.toNat idx).setRes idx).respond .ok (some idx))

/-- PACK_PAD (R126): index 1, white. -/
def execPackPad (x y : Coord) (s : State) : Host.Outcome State Fault Refusal :=
  .next (s.guarded (.packPad x y) (packFailure s (.packPad x y) x y) fun s =>
    (s.pack x.toNat y.toNat 1).respond .ok none)

/-- `alloc_draw()` (R123): the environment's draw, or success where the realisation fixes it. -/
def State.allocOk (s : State) : Bool := !s.cfg.allocMayFail || Config.allocDraw s.allocDraws

/-- FB_ALLOC once its draw is known (R122, R204). -/
def State.allocate (s : State) (ok : Bool) : State :=
  if ok then ({ s.drawFb with fbw := 0#NPIX, fbOwned := true } : State).respond .ok none
  else s.raise (encode .fbAlloc) .allocationError .nothing

/-- FB_ALLOC (R122): the draw is taken only after the ownership check passes (R207). -/
def execFbAlloc (s : State) : Host.Outcome State Fault Refusal :=
  .next (s.guarded .fbAlloc (if s.fbOwned then some (.fbAlreadyOwned, .operation .fbAlloc) else none) fun s =>
    ({ s with allocDraws := s.allocDraws + 1 } : State).allocate s.allocOk)

/-- FB_DISCARD (R127): `FB` and `FBW` stay as they are. -/
def execFbDiscard (s : State) : Host.Outcome State Fault Refusal :=
  .next (s.guarded .fbDiscard (if s.fbOwned then none else some (.fbNotOwned, .operation .fbDiscard)) fun s =>
    ({ s with fbOwned := false } : State).respond .ok none)

end Sys2Proof.Machine
end

