-- ==== Sys2Proof/Machine/Dispatch.lean ====
section
/-! DEFINITION. One arm for each operation (R70). -/

namespace Sys2Proof.Machine

def exec (i : Instr) (s : State) : Host.Outcome State Fault Refusal :=
  match i with
  | .quantize r g b x y => Sys2Proof.Machine.execQuantize r g b x y s
  | .packPixel r g b x y => Sys2Proof.Machine.execPackPixel r g b x y s
  | .packIndex idx x y => Sys2Proof.Machine.execPackIndex idx x y s
  | .packPad x y => Sys2Proof.Machine.execPackPad x y s
  | .fbAlloc => Sys2Proof.Machine.execFbAlloc s
  | .fbDiscard => Sys2Proof.Machine.execFbDiscard s
  | .resetPanel => Sys2Proof.Machine.execResetPanel s
  | .initializePanel => Sys2Proof.Machine.execInitializePanel s
  | .writeFramebuffer => Sys2Proof.Machine.execWriteFramebuffer s
  | .refreshPanel => Sys2Proof.Machine.execRefreshPanel s
  | .sleepPanel => Sys2Proof.Machine.execSleepPanel s
  | .clearPanel color => Sys2Proof.Machine.execClearPanel color s

end Sys2Proof.Machine
end

