-- ==== Sys2Proof/Machine/Fetch.lean ====
section
/-! DEFINITION. The request handshake (R77): what the block does next, and accepting a request. -/

namespace Sys2Proof.Machine

/-- What the block does next. -/
inductive Fetched where
  /-- An operation is held in a busy wait, so no request is accepted (R77, R148). -/
  | held (h : Inflight)
  /-- No request is presented; the block waits for one (R231). -/
  | idle
  /-- The presented word is no request (R80, R81). -/
  | illegal (q : RequestWord)
  /-- The presented word asks for an operation. -/
  | request (i : Instr)
  deriving DecidableEq, Repr

/-- A request is accepted only when `INFLIGHT = none` (R77), and is decoded by R84. -/
def State.fetch (s : State) : Fetched :=
  match s.inflight, s.requests with
  | some h, _ => .held h
  | none, [] => .idle
  | none, q :: _ =>
    match decode q with
    | .ok i => .request i
    | .error _ => .illegal q

/-- The presented request is taken. -/
def State.accept (s : State) : State := { s with requests := s.requests.tail }

/-- ILLEGAL_OPERATION (R80, R81, R201), which records the request word. -/
def State.raiseIllegal (s : State) (q : RequestWord) : State := s.raise q .illegalOperation (.request q)

/-- `s` with the request `q` presented next and no operation held. -/
def State.present (s : State) (q : RequestWord) : State := { s with inflight := none, requests := q :: s.requests }

end Sys2Proof.Machine
end

