-- ==== Sys2Proof/Machine/Step.lean ====
section
/-! DEFINITION. One step: one BUSY sample of a held operation, or one request taken and run to its end or to its first
busy wait (R14, R77, R147; log 9). A block with nothing to do waits (R231). -/

namespace Sys2Proof.Machine

/-- The step of the machine. -/
def step (s : State) : Host.Outcome State Fault Refusal :=
  match s.fetch with
  | .held h => .next (s.poll h (Config.busySample s.busySamples))
  | .idle => .next s
  | .illegal q => .next (s.accept.raiseIllegal q)
  | .request i => exec i s.accept

/-- `s` with a table word of `nbits` bits presented as the next request, every bit above them zero. Log 7. -/
def State.withFetchWord (s : State) (nbits w : Nat) : State := s.present (BitVec.ofNat 64 (w % 2 ^ nbits))

end Sys2Proof.Machine
end

