-- ==== Sys2Proof/Machine/Around.lean ====
section
/-! DEFINITION. What stands around the block, as pure functions that no step calls: the feed contract (R8), the
pseudo-operations (R86), and the host's recovery sequences (R10). Log 19. -/

namespace Sys2Proof.Machine

/-! ### The feed (R8) -/

/-- The red, green and blue bytes of a source pixel whose three bytes are `a, b, c` in storage order (R8(c), D33). -/
def channels (order : ChannelOrder) (a b c : Byte) : Rgb :=
  match order with
  | .bgr => ⟨c, b, a⟩
  | .rgb => ⟨a, b, c⟩
  | .brg => ⟨b, c, a⟩
  | .gbr => ⟨c, a, b⟩
  | .grb => ⟨b, a, c⟩
  | .rbg => ⟨a, c, b⟩

/-- The source column of panel column `x` (R8(d)). -/
def sourceColumn (mirror : Bool) (x : Nat) : Nat := if mirror then W - 1 - x else x

/-- The panel row of the `k`-th row read: rows are stored bottom-up (R8(a)). -/
def panelRow (k : Nat) : Nat := H - 1 - k

/-- The request for panel column `x` of row `y`, from the row's bytes (R8(c) to (f)): a column whose source bytes lie
beyond the row's pixel data is padding, and a byte the source did not give is zero. -/
def feedPixel (c : Config) (row : List Byte) (x y : Nat) : Instr :=
  let col := sourceColumn c.mirrorX x
  if 3 * col + 2 ≥ 3 * W then .packPad (BitVec.ofNat 16 x) (BitVec.ofNat 16 y)
  else
    let p := channels c.srcPixelOrder (row.getD (3 * col) 0) (row.getD (3 * col + 1) 0) (row.getD (3 * col + 2) 0)
    .packPixel p.r p.g p.b (BitVec.ofNat 16 x) (BitVec.ofNat 16 y)

/-- The requests for the `k`-th row read, left to right (R8(b)). -/
def feedRow (c : Config) (k : Nat) (row : List Byte) : List Instr :=
  (List.range W).map fun x => feedPixel c row x (panelRow k)

/-- What the feed records (R8(f), R211). No operation of the block raises one, and none has a status code. -/
inductive FeedError where
  /-- `FormatError`: the header is refused, and no row is read. -/
  | format
  /-- `TruncatedStreamError`: the source ended within the `row`-th row read, or before it. -/
  | truncatedStream (row : Nat)
  deriving DecidableEq, Repr

/-- The source truncated this row: bytes of its `W` pixels are missing (R8(e), R8(f)). -/
def rowTruncated (row : List Byte) : Bool := row.length < 3 * W

/-- What the feed gives for one image: the requests for the packer, and the errors it recorded. -/
structure Fed where
  requests : List Instr
  errors : List FeedError
  deriving DecidableEq, Repr

/-- The render is "flagged degraded" once the feed has recorded a `TruncatedStreamError` (R8(f)). -/
def Fed.degraded (f : Fed) : Bool := f.errors.any (· != .format)

/-- The `TruncatedStreamError`s of an image, one for each row the source truncated (log 19). -/
def truncations (rows : List (List Byte)) : List FeedError :=
  ((List.range H).filter fun k => rowTruncated (rows.getD k [])).map .truncatedStream

/-- The feed of a whole image, in the order its rows are read (R8(a), R234); a truncated row is packed with its missing
bytes zero, and is recorded (R8(f), C7). -/
def feedImage (c : Config) (rows : List (List Byte)) : Fed where
  requests := (List.range H).flatMap fun k => feedRow c k (rows.getD k [])
  errors := truncations rows

/-- The feed of an image whose header is refused: "nothing to the packer" (R10, R211). -/
def feedBadHeader : Fed where
  requests := []
  errors := [.format]

/-! ### Pseudo-operations (R86) and recovery (R10) -/

/-- `RENDER` (R86). -/
def renderRequests : List Instr := [.resetPanel, .initializePanel, .writeFramebuffer, .refreshPanel]

/-- `WRITE_AND_REFRESH` (R86, C5). -/
def writeAndRefreshRequests : List Instr := [.writeFramebuffer, .refreshPanel]

/-- `CLEAR_CYCLE c` (R86). -/
def clearCycleRequests (c : Byte) : List Instr := [.resetPanel, .initializePanel, .clearPanel c]

/-- `PACK_ROW y, (p_0 … p_(W-1))` (R86). -/
def packRowRequests (y : Coord) (row : List Rgb) : List Instr :=
  row.zipIdx.map fun p => .packPixel p.1.r p.1.g p.1.b (BitVec.ofNat 16 p.2) y

/-- `PACK_FRAME` (R86): FB_ALLOC, then the rows from `y = H-1` down to 0; `rows` gives the row of each `y`. -/
def packFrameRequests (rows : List (List Rgb)) : List Instr :=
  .fbAlloc :: (List.range H).flatMap fun k => packRowRequests (BitVec.ofNat 16 (panelRow k)) (rows.getD (panelRow k) [])

/-- The requests a pseudo-operation has issued once `statuses` are its responses so far: it stops at the first that is
not OK (R86). -/
def issuedRequests : List Instr → List Status → List Instr
  | [], _ => []
  | i :: _, [] => [i]
  | i :: is, st :: sts => i :: if st = .ok then issuedRequests is sts else []

/-- What the host does about a degraded render (R10, C7): discard, then the fallback. DESIGN CHOICE (log 21): the fallback
CLEAR is the whole blank/clear cycle RESET, INITIALIZE, CLEAR, where R10's row writes "the fallback CLEAR". -/
def degradedRequests (c : Byte) : List Instr := .fbDiscard :: clearCycleRequests c

/-- What the host does about a `FormatError` (R10, R211): the blank cycle, nothing to the packer. -/
def formatErrorRequests (c : Byte) : List Instr := clearCycleRequests c

/-- What the host presents for one image: the packs of its feed on a fresh framebuffer and the render, or for a degraded
one the discard and the fallback and no WRITE_FRAMEBUFFER (R8(f), R10, R211, R234; log 19). It presents them one after another as
`issuedRequests` does. -/
def imageRequests (color : Byte) (f : Fed) : List Instr :=
  if .format ∈ f.errors then formatErrorRequests color
  else .fbAlloc :: (f.requests ++ if f.degraded then degradedRequests color else renderRequests)

/-- What the host does about a `DeviceTimeoutError` (R10): the full recovery. -/
def timeoutRequests : List Instr := [.resetPanel, .initializePanel]

end Sys2Proof.Machine
end

