-- ==== Sys2Proof/Machine/Observe.lean ====
section
/-! DEFINITION. Observations of a state, for stating claims (R66, R25, R50). None is an operation of the block. -/

namespace Sys2Proof.Machine

/-- `fb_pixel(x, y)` (R66), for a pixel on the panel. -/
def State.fbPixel (s : State) (x y : Nat) : BitVec 2 := getPixelBits (s.fbByte (byteOffset x y)) (bitShift x)

/-- `FBW[p]` for pixel `(x, y)` (R33). -/
def State.written (s : State) (x y : Nat) : Bool := s.fbw.getLsbD (pixelNumber x y)

/-- Reading `RES`: a fault while `RES_VALID = 0` (R25, I14). -/
def State.readRes (s : State) : Except Fault (BitVec 2) :=
  if s.resValid then .ok s.res else .error .resNotValid

/-- Reading `FB[a]`: a fault at an address the framebuffer does not have (R50). -/
def State.readFb (s : State) (a : Nat) : Except Fault Byte :=
  if a < NFB then .ok (s.fbByte a) else .error (.fbAddress a)

/-- The events of a command entry (R143). -/
def entryEvents (e : Entry) : List BusEvent := .cmd e.cmd :: e.data.map .data

/-- The events of the reset pulse (R144, R161). -/
def resetEvents : List BusEvent :=
  [.rst .asserted, .delay 200, .rst .deasserted, .delay 2, .rst .asserted, .delay 200]

/-- The events of the part of `transmit()` after its wait, for the framebuffer bytes `bytes` (R166). -/
def ramEvents (c : Config) (bytes : List Byte) : List BusEvent := entryEvents (writeRamEntry c) ++ bytes.map .data

/-- The samples `ls` fed to a held operation, one poll each; a block that holds nothing ignores the rest. -/
def State.pollAll (s : State) : List Level → State
  | [] => s
  | l :: ls =>
    match s.inflight with
    | some h => (s.poll h l).pollAll ls
    | none => s

/-- The events of samples `ls` each followed by the poll delay (R146). -/
def waitEvents (ls : List Level) : List BusEvent := ls.flatMap fun l => [.busy l, .delay 5]

end Sys2Proof.Machine
end

