-- ==== Sys2Proof/Safety.lean ====
section
/-! DEFINITION. What a legal state of the block is, and what counts as a clean run, in the terms claims use. -/

namespace Sys2Proof.Machine

/-- `DSTATE` during a hold (R23). -/
def holdState : HoldPoint → DState
  | .writeFramebuffer | .clearFirst _ => .transmitting
  | .refreshFirst | .refreshSecond | .clearSecond _ | .clearThird _ => .refreshing

/-- `FB_OWNED` during a hold, where the operation fixes it: set until `transmit()` ends, clear afterwards (R24, R166). -/
def holdOwned : HoldPoint → Option Bool
  | .writeFramebuffer | .clearFirst _ => some true
  | .clearSecond _ | .clearThird _ => some false
  | .refreshFirst | .refreshSecond => none

/-- CLEAR's colour during its holds (R171). -/
def holdColor : HoldPoint → Option Byte
  | .clearFirst c | .clearSecond c | .clearThird c => some c
  | .writeFramebuffer | .refreshFirst | .refreshSecond => none

/-- The state fits the operation it holds: `DSTATE`, `FB_OWNED`, CLEAR's fill, `polls` below the limit, and no more
events of its own than the trace has (R23, R24, R29, R171). -/
structure HoldFits (s : State) (h : Inflight) : Prop where
  dstate : s.dstate = holdState h.point
  owned : ∀ o, holdOwned h.point = some o → s.fbOwned = o
  filled : ∀ c, holdColor h.point = some c → s.fbw = BitVec.allOnes NPIX ∧ ∀ a, a < NFB → s.fbByte a = c
  polls : PollLimit.reached s.cfg.busyTimeout h.polls = false
  step : h.step ≤ s.trace.length

/-- The control invariant: the framebuffer is in its canonical form; a held operation fits the state; and `Refreshing`
"exists only while REFRESH or CLEAR is held" (R173). -/
structure Legal (s : State) : Prop where
  memory : Memory.wf s.fbDrawn s.fb
  held : ∀ h, s.inflight = some h → HoldFits s h
  refreshing : s.inflight = none → s.dstate ≠ .refreshing

/-- The statuses of the responses that are not OK, in order. -/
def failures (rs : List Response) : List Status := (rs.map (·.status)).filter (· ≠ .ok)

/-- The records agree with the responses: `ERRLOG` has one entry for each response that is not OK (R33), `ERR` is the
status of the last one (R26), `FAULTED` tells whether one was a fault (R33, R203). -/
structure RecordsAgree (s : State) : Prop where
  errlog : s.errlog.map (·.status) = failures s.responses
  err : s.err = (s.responses.getLast?.map (·.status)).getD .ok
  faulted : s.faulted = (failures s.responses).any Status.isFault

/-- `s` after a fault or an error that ends an operation before its first effect (R202, R203), field by field. -/
def refusedWith (s : State) (q : RequestWord) (st : Status) (info : ErrInfo) : State :=
  { s with
    err := st
    errlog := s.errlog ++ [{ request := q, status := st, info := info }]
    faulted := if st = .allocationError ∨ st = .deviceTimeout then s.faulted else true
    inflight := none
    responses := s.responses ++ [{ status := st, result := 0#2, resultValid := false }] }

/-- From `s` to `t` the framebuffer changed in pixel `(x, y)` alone, which now holds `idx` (R121): the byte at
`byteOffset x y` keeps its six other bits, every other byte and every other pixel is as before, and so is every other
bit of `FBW`. -/
structure PixelPacked (s t : State) (x y : Nat) (idx : BitVec 2) : Prop where
  pixel : t.fbPixel x y = idx
  bits : ∀ k, k ≠ bitShift x → k ≠ bitShift x + 1 →
    (t.fbByte (byteOffset x y)).getLsbD k = (s.fbByte (byteOffset x y)).getLsbD k
  bytes : ∀ a, a ≠ byteOffset x y → t.fbByte a = s.fbByte a
  pixels : ∀ x' y', x' < W → y' < H → (x', y') ≠ (x, y) → t.fbPixel x' y' = s.fbPixel x' y'
  mark : t.written x y = true
  marks : ∀ p, p < NPIX → p ≠ pixelNumber x y → t.fbw.getLsbD p = s.fbw.getLsbD p

/-- Requests run one after another, each to a next state. A fault or an error of the block is a next state too (log 8), so
that a run goes on after one; whether there was one stands in `errlog`. -/
def runAll : List Instr → State → Option State
  | [], s => some s
  | i :: is, s =>
    match exec i s with
    | .next t => runAll is t
    | .fault _ => none
    | .refused _ => none

/-- The index a pack operation writes and the pixel it writes it to (R124 to R126); none of any other operation. -/
def packTarget (c : Config) : Instr → Option (BitVec 2 × Coord × Coord)
  | .packIndex idx x y => some (idx, x, y)
  | .packPixel r g b x y => some (quantizeIndex c r g b x.toNat y.toNat, x, y)
  | .packPad x y => some (1, x, y)
  | .quantize _ _ _ _ _ | .fbAlloc | .fbDiscard | .resetPanel | .initializePanel | .writeFramebuffer | .refreshPanel
  | .sleepPanel | .clearPanel _ => none

/-- Each of `is` is one of the three pack operations, for a pixel on the panel (R120). -/
def PacksOnPanel (c : Config) (is : List Instr) : Prop :=
  ∀ i ∈ is, ∃ idx x y, packTarget c i = some (idx, x, y) ∧ x.toNat < W ∧ y.toNat < H

/-- The index last packed into pixel `(x, y)`, if one was (R128). -/
def lastIndex (c : Config) (is : List Instr) (x y : Nat) : Option (BitVec 2) :=
  ((is.filterMap (packTarget c)).filter fun p => p.2.1.toNat = x ∧ p.2.2.toNat = y).getLast?.map (·.1)

/-- Samples that are all short of the done level, and fewer than time a wait out (R146). -/
structure Waits (c : Config) (ls : List Level) : Prop where
  notDone : ∀ l ∈ ls, l ≠ c.busyDoneLevel
  within : PollLimit.reached c.busyTimeout ls.length = false

/-- A clean state: "a claim about a run takes FAULTED = 0 at the end as a premise" (R202). -/
def Clean (s : State) : Prop := s.faulted = false

end Sys2Proof.Machine
end

