-- ==== Sys2Proof/Certificates/Slice0/Obligations.lean ====
section
/-! DEFINITION. The statements for the provers. Each says which rule of spec/ it formalises. -/

open Sys2Proof Sys2Proof.Machine

/-! ### Requests: encoding, decoding, the step -/

/-- Every instruction's request word decodes to it (R70 to R76, R84). CLEAR's zero bits are those of log 23. -/
def Obligations.EncodeThenDecodeGivesTheInstruction : Prop :=
  ∀ i : Instr, decode (encode i) = .ok i

/-- A word that decodes to an instruction is that instruction's word: no other spelling of a request exists (R71, R82).
Which bits are reserved is read as in log 22. -/
def Obligations.DecodeThenEncodeGivesTheWord : Prop :=
  ∀ (q : RequestWord) (i : Instr), decode q = .ok i → encode i = q

/-- Every word is exactly one row of the table, or illegal by R80 or by R81 (R82). Which bits are reserved is read as in
log 22. -/
def Obligations.EveryWordIsOneRowOrIllegal : Prop :=
  ∀ q : RequestWord,
    ((∃! row, row ∈ opcodeTable ∧ row.matches q = true) ∧ wellFormedRequest q = true ∧ ∃ i, decode q = .ok i) ∨
    ((∀ row ∈ opcodeTable, row.matches q = false) ∧ operationOfOpcode (q.extractLsb' 60 4) = none ∧
      decode q = .error .reservedOpcode) ∨
    ((∀ row ∈ opcodeTable, row.matches q = false) ∧
      (∃ op, operationOfOpcode (q.extractLsb' 60 4) = some op ∧ reservedClear op.format q = false) ∧
      decode q = .error .reservedBits)

/-- Words written out from R70 and R71 decode to the requests they stand for, one of each format and illegal ones.
CLEAR's zero bits and the reserved bits are read as in log 23 and log 22. -/
def Obligations.WrittenOutWordsDecode : Prop :=
  decode 0x1080808000000000#64 = .ok (.quantize 128 128 128 0 0) ∧
  decode 0x20FF000000000003#64 = .ok (.packPixel 255 0 0 3 0) ∧
  decode 0x30000002018F00A7#64 = .ok (.packIndex 2 167 399) ∧
  decode 0x4000000000000004#64 = .ok (.packPad 4 0) ∧
  decode 0xA000000000000000#64 = .ok .writeFramebuffer ∧
  decode 0xD000000000000055#64 = .ok (.clearPanel 0x55) ∧
  decode 0x7000000000000000#64 = .error .reservedOpcode ∧
  decode 0x3000000400000000#64 = .error .reservedBits

/-- When no operation is held, a step runs the presented request, taken from the host's
requests (R77, R84). The list of requests is the model's (log 7). -/
def Obligations.StepRunsTheDecodedRequest : Prop :=
  ∀ (s : State) (q : RequestWord) (rest : List RequestWord) (i : Instr),
    s.inflight = none → s.requests = q :: rest → decode q = .ok i → step s = exec i { s with requests := rest }

/-- A word with a reserved opcode or a nonzero reserved bit completes with ILLEGAL_OPERATION and no other effect (R80,
R81). Which bits are reserved is read as in log 22. -/
def Obligations.IllegalWordsHaveNoOtherEffect : Prop :=
  ∀ (s : State) (q : RequestWord) (rest : List RequestWord),
    s.inflight = none → s.requests = q :: rest → wellFormedRequest q = false →
    step s = .next (refusedWith { s with requests := rest } q .illegalOperation (.request q))

/-- While an operation is held, a step takes one sample and no request, and short of the done level it emits no command
or data byte (R148). That the sample is `Config.busySample` of a counter is the model's choice (log 4). -/
def Obligations.HeldBlockAcceptsNothingAndSendsNothing : Prop :=
  ∀ (s : State) (h : Inflight), s.inflight = some h →
    step s = .next (s.poll h (Config.busySample s.busySamples)) ∧
    ∀ l : Level, (s.poll h l).requests = s.requests ∧
      (l ≠ s.cfg.busyDoneLevel →
        (s.poll h l).trace = s.trace ++ [.busy l] ∨ (s.poll h l).trace = s.trace ++ [.busy l, .delay 5])

/-! ### The quantizer -/

/-- The matrix and the four thresholds (R101, R102): the standard table is the formula's, rounded down. That table is the
spec's evaluation for the factor 32, a named constant here (log 17). -/
def Obligations.BayerMatrixAndThresholds : Prop :=
  (∀ x y : Nat, ((([[0, 2], [3, 1]] : List (List Nat)).getD (y % 2) []).getD (x % 2) 0) = (bayer x y).val) ∧
  ∀ b : Fin 4, thresholdAt standardThresholds b = thresholdOf ditherFactor b.val

/-- The channels are clamped to 0..255, each squared difference is at most 65025 and each distance at most 195075
(R106). -/
def Obligations.DistancesStayInRange : Prop :=
  ∀ (t : Thresholds) (r g b : Byte) (x y : Nat) (c : Rgb),
    let p := adjustPixel t r g b x y
    (0 ≤ p.r ∧ p.r ≤ 255) ∧ (0 ≤ p.g ∧ p.g ≤ 255) ∧ (0 ≤ p.b ∧ p.b ≤ 255) ∧
    (p.r - c.r.toNat) ^ 2 ≤ 65025 ∧ (p.g - c.g.toNat) ^ 2 ≤ 65025 ∧ (p.b - c.b.toNat) ^ 2 ≤ 65025 ∧
    0 ≤ distance p c ∧ distance p c ≤ 195075

/-- QUANTIZE completes in every state: its index names a palette entry that no entry is closer than, and every entry of
a lower index is strictly farther (R104); it writes RES, RES_VALID and ERR and gives the index, and nothing else changes
(R105). -/
def Obligations.QuantizeAnswersTheNearestEntry : Prop :=
  ∀ (s : State) (r g b : Byte) (x y : Coord), ∃ (idx : BitVec 2) (best : Rgb),
    exec (.quantize r g b x y) s = .next { s with
      res := idx, resValid := true, err := .ok
      responses := s.responses ++ [{ status := .ok, result := idx, resultValid := true }] } ∧
    (idx, best) ∈ paletteEntries s.cfg.palette ∧
    ∀ j c, (j, c) ∈ paletteEntries s.cfg.palette →
      distance (adjustPixel s.cfg.thresh r g b x.toNat y.toNat) best ≤
        distance (adjustPixel s.cfg.thresh r g b x.toNat y.toNat) c ∧
      (j.toNat < idx.toNat →
        distance (adjustPixel s.cfg.thresh r g b x.toNat y.toNat) best <
          distance (adjustPixel s.cfg.thresh r g b x.toNat y.toNat) c)

/-- With the default palette and the standard thresholds a gray is white from 128 up after the offset and black below,
and the positions (0,0) and (1,1) differ exactly for the grays 134 to 143 (R107(d), C1). The default palette is the
spec's own choice (D1; log 17). -/
def Obligations.GraysDitherByPosition : Prop :=
  ∀ c : Config, c.palette = defaultPalette → c.thresh = standardThresholds → ∀ v : Byte,
    (∀ x y : Nat, quantizeIndex c v v v x y =
      if 128 ≤ (v.toNat : Int) + thresholdAt standardThresholds (bayer x y) then 1#2 else 0#2) ∧
    (quantizeIndex c v v v 0 0 ≠ quantizeIndex c v v v 1 1 ↔ 134 ≤ v.toNat ∧ v.toNat ≤ 143)

/-! ### The framebuffer and the packer -/

/-- Every byte of the framebuffer is its four pixels, the leftmost in the most significant bits (R51, R53). -/
def Obligations.ByteIsItsFourPixels : Prop :=
  ∀ (s : State) (y k : Nat), y < H → k < BPR →
    (s.fbByte (BPR * y + k)).toNat =
      64 * (s.fbPixel (4 * k) y).toNat + 16 * (s.fbPixel (4 * k + 1) y).toNat +
        4 * (s.fbPixel (4 * k + 2) y).toNat + (s.fbPixel (4 * k + 3) y).toNat

/-- PACK_INDEX and PACK_PAD (index 1) complete on an owned framebuffer for a pixel on the panel: exactly the two bits of
the pixel change (R121), the response is OK, and nothing else changes (R124, R126). -/
def Obligations.PackIndexAndPadWriteOnePixel : Prop :=
  ∀ (s : State) (i : Instr) (idx : BitVec 2) (x y : Coord),
    i = .packIndex idx x y ∨ (i = .packPad x y ∧ idx = 1#2) →
    s.fbOwned = true → x.toNat < 168 → y.toNat < 400 →
    ∃ t, exec i s = .next t ∧ PixelPacked s t x.toNat y.toNat idx ∧
      t = { s with
        fb := t.fb, fbw := t.fbw, err := .ok
        responses := s.responses ++ [{ status := .ok, result := 0#2, resultValid := false }] }

/-- PACK_PIXEL completes likewise, and the pixel then holds the quantizer's index at its own coordinates, which is also
RES and the result (R125, R66). -/
def Obligations.PackPixelRoundTrip : Prop :=
  ∀ (s : State) (r g b : Byte) (x y : Coord), s.fbOwned = true → x.toNat < 168 → y.toNat < 400 →
    ∃ t, exec (.packPixel r g b x y) s = .next t ∧
      PixelPacked s t x.toNat y.toNat (quantizeIndex s.cfg r g b x.toNat y.toNat) ∧
      t = { s with
        fb := t.fb, fbw := t.fbw, err := .ok
        res := quantizeIndex s.cfg r g b x.toNat y.toNat, resValid := true
        responses := s.responses ++
          [{ status := .ok, result := quantizeIndex s.cfg r g b x.toNat y.toNat, resultValid := true }] }

/-- The packer's checks in their order: ownership before coordinates, and a failed one has no other effect (R120, R202,
R207). -/
def Obligations.PackChecksInOrder : Prop :=
  ∀ (s : State) (i : Instr) (r g b : Byte) (idx : BitVec 2) (x y : Coord),
    i = .packIndex idx x y ∨ i = .packPixel r g b x y ∨ i = .packPad x y →
    (s.fbOwned = false → exec i s = .next (refusedWith s (encode i) .fbNotOwned (.operation i.operation))) ∧
    (s.fbOwned = true → ¬ (x.toNat < 168 ∧ y.toNat < 400) →
      exec i s = .next (refusedWith s (encode i) .coordinate (.coordinates x y)))

/-- Any two pack operations complete in either order (R128). On two different pixels the two orders leave one state but
for the order of the responses and RES, which PACK_PIXEL gives, and one and the same state where neither is PACK_PIXEL; on
one pixel the later decides, and leaves what it leaves alone but for the earlier one's result and response. -/
def Obligations.PacksCommuteOrOverwrite : Prop :=
  ∀ (s : State) (i j : Instr) (idx idx' : BitVec 2) (x y x' y' : Coord),
    packTarget s.cfg i = some (idx, x, y) → packTarget s.cfg j = some (idx', x', y') →
    s.fbOwned = true → Memory.wf s.fbDrawn s.fb →
    x.toNat < 168 → y.toNat < 400 → x'.toNat < 168 → y'.toNat < 400 →
    ((x, y) ≠ (x', y') → ∃ t u, runAll [i, j] s = some t ∧ runAll [j, i] s = some u ∧
      t = { u with res := t.res, responses := t.responses } ∧
      (i.operation ≠ .packPixel → j.operation ≠ .packPixel → t = u)) ∧
    ((x, y) = (x', y') → ∃ t u, runAll [i, j] s = some t ∧ exec j s = .next u ∧
      t = { u with res := t.res, resValid := t.resValid, responses := t.responses })

/-- After any sequence of the three pack operations on the panel, each pixel holds the index last packed into it, or what
it held before, and `FBW` marks exactly the pixels packed (R128). The index of a PACK_PIXEL is the quantizer's (R125),
that of a PACK_PAD is 1 (R126). -/
def Obligations.LastPackDecidesEachPixel : Prop :=
  ∀ (s : State) (is : List Instr), s.fbOwned = true → PacksOnPanel s.cfg is →
    ∃ t, runAll is s = some t ∧ t.fbOwned = true ∧ t.trace = s.trace ∧ t.dstate = s.dstate ∧
      ∀ x y, x < W → y < H →
        t.fbPixel x y = (lastIndex s.cfg is x y).getD (s.fbPixel x y) ∧
        t.written x y = (s.written x y || (lastIndex s.cfg is x y).isSome)

/-- After FB_ALLOC and at least one of the three pack operations on every pixel, `FBW` is all 1 and no byte depends on the
drawn contents: each is made of the four indices last packed into its pixels (R129). The allocation succeeds where it
cannot fail or where its draw, in the model's form (log 5), is true (R123). -/
def Obligations.CompletePackingLeavesNothingDrawn : Prop :=
  ∀ (s : State) (is : List Instr),
    s.fbOwned = false → s.cfg.allocMayFail = false ∨ Config.allocDraw s.allocDraws = true → PacksOnPanel s.cfg is →
    (∀ x y, x < W → y < H → (lastIndex s.cfg is x y).isSome = true) →
    ∃ t, runAll (.fbAlloc :: is) s = some t ∧ t.fbw = BitVec.allOnes NPIX ∧
      ∀ y k, y < H → k < BPR → ∃ i0 i1 i2 i3,
        lastIndex s.cfg is (4 * k) y = some i0 ∧ lastIndex s.cfg is (4 * k + 1) y = some i1 ∧
        lastIndex s.cfg is (4 * k + 2) y = some i2 ∧ lastIndex s.cfg is (4 * k + 3) y = some i3 ∧
        (t.fbByte (BPR * y + k)).toNat = 64 * i0.toNat + 16 * i1.toNat + 4 * i2.toNat + i3.toNat

/-- FB_ALLOC completes where no framebuffer is owned and the realisation's allocation cannot fail: ownership, `FBW`
clear, every byte a freshly drawn one (R122, R123). The form of the draw is the model's (log 3). -/
def Obligations.FbAllocGivesAFreshFramebuffer : Prop :=
  ∀ s : State, s.fbOwned = false → s.cfg.allocMayFail = false →
    ∃ t, exec .fbAlloc s = .next t ∧ (∀ a, t.fbByte a = Config.freshByte (s.fbGen + 1) a) ∧
      (∀ x y, x < W → y < H → t.written x y = false) ∧
      t = { s with
        fb := t.fb, fbw := 0#NPIX, fbOwned := true, fbGen := s.fbGen + 1, allocDraws := s.allocDraws + 1, err := .ok
        responses := s.responses ++ [{ status := .ok, result := 0#2, resultValid := false }] }

/-- Where the allocation may fail, FB_ALLOC follows its draw: it completes as where it cannot fail, or it ends with
ALLOCATION_ERROR with FB and FB_OWNED unchanged and FAULTED not set (R122, R123, R204). That the draw is
`Config.allocDraw` of a counter, and the form of the drawn bytes, are the model's choice (log 5, log 3). -/
def Obligations.FbAllocFollowsItsDraw : Prop :=
  ∀ s : State, s.fbOwned = false → s.cfg.allocMayFail = true →
    ∃ t, exec .fbAlloc s = .next t ∧
      if Config.allocDraw s.allocDraws = true then
        (∀ a, t.fbByte a = Config.freshByte (s.fbGen + 1) a) ∧ (∀ x y, x < W → y < H → t.written x y = false) ∧
        t = { s with
          fb := t.fb, fbw := 0#NPIX, fbOwned := true, fbGen := s.fbGen + 1, allocDraws := s.allocDraws + 1, err := .ok
          responses := s.responses ++ [{ status := .ok, result := 0#2, resultValid := false }] }
      else t = refusedWith { s with allocDraws := s.allocDraws + 1 } (encode .fbAlloc) .allocationError .nothing

/-- FB_DISCARD completes on an owned framebuffer and releases it with its contents as they are; the two ownership faults
of FB_ALLOC and FB_DISCARD have no other effect (R122, R127, R201). -/
def Obligations.DiscardReleasesAndOwnershipFaults : Prop :=
  ∀ s : State,
    (s.fbOwned = true → exec .fbDiscard s = .next { s with
      fbOwned := false, err := .ok
      responses := s.responses ++ [{ status := .ok, result := 0#2, resultValid := false }] }) ∧
    (s.fbOwned = false →
      exec .fbDiscard s = .next (refusedWith s (encode .fbDiscard) .fbNotOwned (.operation .fbDiscard))) ∧
    (s.fbOwned = true →
      exec .fbAlloc s = .next (refusedWith s (encode .fbAlloc) .fbAlreadyOwned (.operation .fbAlloc)))

/-! ### The driver -/

/-- RESET completes in every state with exactly its six events, and leaves everything but `DSTATE`, `RST` and `ERR` as it
was (R161, R162, R35; the events are those of R144). -/
def Obligations.ResetFromEveryState : Prop :=
  ∀ s : State, exec .resetPanel s = .next { s with
    dstate := .awaitingReset, rst := s.cfg.rstAssertLevel
    trace := s.trace ++
      [.rst .asserted, .delay 200, .rst .deasserted, .delay 2, .rst .asserted, .delay 200]
    err := .ok
    responses := s.responses ++ [{ status := .ok, result := 0#2, resultValid := false }] }

/-- INITIALIZE completes in `AwaitingReset`: the entries of the fixed table in order, no wait, `Ready` (R163). The lines are
as the last entry's last transfer leaves them (R141). -/
def Obligations.InitializeSendsTheTable : Prop :=
  ∀ s : State, s.dstate = .awaitingReset →
    ∃ t, exec .initializePanel s = .next t ∧
      t = { s with
        dstate := .ready, dc := t.dc, cs := t.cs
        trace := s.trace ++ s.cfg.initSeq.flatMap fun e => .cmd e.cmd :: e.data.map .data
        err := .ok
        responses := s.responses ++ [{ status := .ok, result := 0#2, resultValid := false }] } ∧
      (s.cfg.initSeq = [] → t.dc = s.dc ∧ t.cs = s.cs) ∧
      ∀ es e, s.cfg.initSeq = es ++ [e] →
        t.dc = (if e.data = [] then .low else .high) ∧ t.cs = s.cfg.csActiveLevel.not

/-- WRITE_FRAMEBUFFER in `Ready` with an owned framebuffer completes up to its wait, held with nothing sampled (R29, R165);
and from there any samples short of a timeout and then the done level send the framebuffer in ascending order, release
it and answer OK (R146, R166, R54). That the operation stops at its wait as one step, and what `step` counts, are the
model's (log 9, log 10). -/
def Obligations.WriteFramebufferSendsEveryByte : Prop :=
  ∀ (s : State) (ls : List Level), s.dstate = .ready → s.fbOwned = true → Waits s.cfg ls →
    ∃ u, exec .writeFramebuffer s = .next u ∧
      u = { s with
        dstate := .transmitting, dc := if s.cfg.startTx.data = [] then .low else .high
        cs := s.cfg.csActiveLevel.not
        trace := s.trace ++ entryEvents s.cfg.startTx
        inflight := some { point := .writeFramebuffer, step := 1 + s.cfg.startTx.data.length, polls := 0 } } ∧
      u.pollAll (ls ++ [s.cfg.busyDoneLevel]) = { s with
        dstate := .transmitting, fbOwned := false, inflight := none, dc := .high, cs := s.cfg.csActiveLevel.not
        busySamples := s.busySamples + (ls.length + 1)
        trace := s.trace ++ (entryEvents s.cfg.startTx ++ (waitEvents ls ++
          (.busy s.cfg.busyDoneLevel :: ramEvents s.cfg s.fbBytes)))
        err := .ok
        responses := s.responses ++ [{ status := .ok, result := 0#2, resultValid := false }] } ∧
      s.fbBytes.length = NFB ∧ ∀ a, a < NFB → s.fbBytes[a]? = some (s.fbByte a)

/-- REFRESH in `Transmitting` completes up to its first wait, and through its two waits to `Ready` with exactly the
refresh and power-off entries (R167, R168). The steps and `step` are the model's (log 9, log 10). -/
def Obligations.RefreshRunsItsTwoWaits : Prop :=
  ∀ (s : State) (ls ls' : List Level), s.dstate = .transmitting → Waits s.cfg ls → Waits s.cfg ls' →
    ∃ u, exec .refreshPanel s = .next u ∧
      u = { s with
        dstate := .refreshing, dc := .high, cs := s.cfg.csActiveLevel.not
        trace := s.trace ++ entryEvents (refreshEntry s.cfg)
        inflight := some { point := .refreshFirst, step := 2, polls := 0 } } ∧
      u.pollAll (ls ++ s.cfg.busyDoneLevel :: (ls' ++ [s.cfg.busyDoneLevel])) = { s with
        dstate := .ready, inflight := none, dc := .high, cs := s.cfg.csActiveLevel.not
        busySamples := s.busySamples + (ls.length + 1) + (ls'.length + 1)
        trace := s.trace ++ (entryEvents (refreshEntry s.cfg) ++ (waitEvents ls ++ (.busy s.cfg.busyDoneLevel ::
          (entryEvents (powerOffEntry s.cfg) ++ (waitEvents ls' ++ [.busy s.cfg.busyDoneLevel])))))
        err := .ok
        responses := s.responses ++ [{ status := .ok, result := 0#2, resultValid := false }] }

/-- SLEEP completes in `Ready`: power off, deep sleep, the settle delay, `Sleeping` (R169); all of the block's own state is
kept (R217). -/
def Obligations.SleepCommandsDeepSleep : Prop :=
  ∀ s : State, s.dstate = .ready →
    ∃ t, exec .sleepPanel s = .next t ∧
      t = { s with
        dstate := .sleeping, dc := if s.cfg.deepSleep.data = [] then .low else .high
        cs := s.cfg.csActiveLevel.not
        trace := s.trace ++ (.cmd s.cfg.powerOffCmd :: .data s.cfg.powerOffParam ::
          .cmd s.cfg.deepSleep.cmd :: (s.cfg.deepSleep.data.map .data ++ [.delay 2000]))
        err := .ok
        responses := s.responses ++ [{ status := .ok, result := 0#2, resultValid := false }] }

/-- CLEAR in `Ready` completes up to its first wait, whether or not a framebuffer is owned, with every byte filled; and
through its three waits it sends that byte 16800 times, refreshes, and ends in `Ready` with no framebuffer owned (R171,
R172). The steps and `step` are the model's (log 9, log 10). -/
def Obligations.ClearShowsOneByteEverywhere : Prop :=
  ∀ (s : State) (c : Byte) (ls ls' ls'' : List Level),
    s.dstate = .ready → Waits s.cfg ls → Waits s.cfg ls' → Waits s.cfg ls'' →
    ∃ u t, exec (.clearPanel c) s = .next u ∧
      u = { s with
        fb := u.fb, fbw := BitVec.allOnes NPIX, fbOwned := true, dstate := .transmitting
        dc := if s.cfg.startTx.data = [] then .low else .high
        cs := s.cfg.csActiveLevel.not
        trace := s.trace ++ entryEvents s.cfg.startTx
        inflight := some { point := .clearFirst c, step := 1 + s.cfg.startTx.data.length, polls := 0 } } ∧
      (∀ a, a < NFB → u.fbByte a = c) ∧
      u.pollAll (ls ++ s.cfg.busyDoneLevel :: (ls' ++ s.cfg.busyDoneLevel :: (ls'' ++ [s.cfg.busyDoneLevel]))) = t ∧
      (∀ a, a < NFB → t.fbByte a = c) ∧
      t = { s with
        fb := t.fb, fbw := BitVec.allOnes NPIX, fbOwned := false, dstate := .ready, inflight := none, dc := .high
        cs := s.cfg.csActiveLevel.not
        busySamples := s.busySamples + (ls.length + 1) + (ls'.length + 1) + (ls''.length + 1)
        trace := s.trace ++ (entryEvents s.cfg.startTx ++ (waitEvents ls ++ (.busy s.cfg.busyDoneLevel ::
          (ramEvents s.cfg (fbAddresses.map fun _ => c) ++ (entryEvents (refreshEntry s.cfg) ++ (waitEvents ls' ++
            (.busy s.cfg.busyDoneLevel :: (entryEvents (powerOffEntry s.cfg) ++ (waitEvents ls'' ++
              [.busy s.cfg.busyDoneLevel])))))))))
        err := .ok
        responses := s.responses ++ [{ status := .ok, result := 0#2, resultValid := false }] }

/-- The full render (R86 RENDER, R234): from any state with an owned framebuffer, RESET, INITIALIZE, WRITE_FRAMEBUFFER and
REFRESH, with the done level at every sample, put on the bus exactly the four operations' events in order and end in
`Ready`, with the framebuffer's bytes unchanged and given up. That each sample is a step of its own is the model's (log 9). -/
def Obligations.RenderSendsTheFrame : Prop :=
  ∀ s : State, s.fbOwned = true →
    ∃ t1 t2 u3 u4, exec .resetPanel s = .next t1 ∧ exec .initializePanel t1 = .next t2 ∧
      exec .writeFramebuffer t2 = .next u3 ∧
      exec .refreshPanel (u3.pollAll [s.cfg.busyDoneLevel]) = .next u4 ∧
      let t := u4.pollAll [s.cfg.busyDoneLevel, s.cfg.busyDoneLevel]
      t.trace = s.trace ++ resetEvents ++ s.cfg.initSeq.flatMap entryEvents ++
        entryEvents s.cfg.startTx ++ [.busy s.cfg.busyDoneLevel] ++ ramEvents s.cfg s.fbBytes ++
        entryEvents (refreshEntry s.cfg) ++ [.busy s.cfg.busyDoneLevel] ++
        entryEvents (powerOffEntry s.cfg) ++ [.busy s.cfg.busyDoneLevel] ∧
      t.dstate = .ready ∧ t.fbOwned = false ∧ t.fb = s.fb ∧ t.fbGen = s.fbGen ∧ t.fbw = s.fbw ∧ t.err = .ok ∧
      t.faulted = s.faulted ∧ t.errlog = s.errlog ∧ t.inflight = none

/-- "Which can always be driven back to Ready": RESET then INITIALIZE reach `Ready` from every state, with the framebuffer,
its ownership and RES untouched (R162, R200, R35). -/
def Obligations.RecoveryReachesReady : Prop :=
  ∀ s : State, ∃ t, runAll timeoutRequests s = some t ∧ t.dstate = .ready ∧ t.err = .ok ∧
    t.fb = s.fb ∧ t.fbGen = s.fbGen ∧ t.fbOwned = s.fbOwned ∧ t.fbw = s.fbw ∧ t.res = s.res ∧ t.resValid = s.resValid ∧
    t.trace = s.trace ++ resetEvents ++ s.cfg.initSeq.flatMap entryEvents

/-- A driver operation other than RESET in a state it does not list raises PROTOCOL_STATE with no event and no other
effect, whatever the ownership; WRITE_FRAMEBUFFER in `Ready` without a framebuffer raises FB_NOT_OWNED (R160(b), R170,
R201, R207). -/
def Obligations.DriverChecksInOrder : Prop :=
  (∀ (s : State) (i : Instr) (c : Byte) (d : DState),
    (i, d) ∈ [(Instr.initializePanel, DState.awaitingReset), (.writeFramebuffer, .ready), (.refreshPanel, .transmitting),
      (.sleepPanel, .ready), (.clearPanel c, .ready)] →
    s.dstate ≠ d →
    exec i s = .next (refusedWith s (encode i) .protocolState (.operationState i.operation s.dstate))) ∧
  ∀ s : State, s.dstate = .ready → s.fbOwned = false →
    exec .writeFramebuffer s =
      .next (refusedWith s (encode .writeFramebuffer) .fbNotOwned (.operation .writeFramebuffer))

/-- A held operation whose samples reach BUSY_TIMEOUT_POLLS short of the done level aborts with DEVICE_TIMEOUT: no further
event, `Uninitialized`, the framebuffer released by WRITE_FRAMEBUFFER and CLEAR but not by REFRESH, the number of the wait
recorded, FAULTED as it was (R146, R205, R206). -/
def Obligations.TimeoutAtTheLimit : Prop :=
  ∀ (s : State) (h : Inflight) (k : Nat) (pos : 0 < k) (ls : List Level) (l : Level),
    s.inflight = some h → s.cfg.busyTimeout = .polls k pos → (∀ m ∈ ls ++ [l], m ≠ s.cfg.busyDoneLevel) →
    h.polls + ls.length + 1 = k →
    s.pollAll (ls ++ [l]) = { s with
      inflight := none, dstate := .uninitialized
      fbOwned := if h.point = .refreshFirst ∨ h.point = .refreshSecond then s.fbOwned else false
      busySamples := s.busySamples + (ls.length + 1)
      trace := s.trace ++ (waitEvents ls ++ [.busy l])
      err := .deviceTimeout
      errlog := s.errlog ++
        [{ request := encode h.point.instr, status := .deviceTimeout, info := .wait h.point.waitNumber }]
      responses := s.responses ++ [{ status := .deviceTimeout, result := 0#2, resultValid := false }] }

/-- Without a timeout, a panel that never presents the done level holds the operation for ever: any number of samples
leaves it held at the same wait, with no response (R146, R147, R240). That `step` counts the sample and the delay is the
model's reading (log 10). -/
def Obligations.HangWithoutATimeout : Prop :=
  ∀ (s : State) (h : Inflight) (ls : List Level),
    s.inflight = some h → s.cfg.busyTimeout = .inf → (∀ l ∈ ls, l ≠ s.cfg.busyDoneLevel) →
    s.pollAll ls = { s with
      inflight := some { h with step := h.step + 2 * ls.length, polls := h.polls + ls.length }
      busySamples := s.busySamples + ls.length
      trace := s.trace ++ waitEvents ls }

/-! ### The whole machine -/

/-- A response that carries a fault is the answer to a presented request, and its step changes nothing but ERR, ERRLOG,
which records that request word, FAULTED and the responses (R202). That a fault is a next state is the model's reading
(log 8). -/
def Obligations.FaultLeavesEverythingElse : Prop :=
  ∀ (s t : State) (a : Response), step s = .next t → t.responses = s.responses ++ [a] → a.status.isFault = true →
    s.inflight = none ∧ ∃ q rest info, s.requests = q :: rest ∧
      t = { s with
        requests := rest, err := a.status, faulted := true
        errlog := s.errlog ++ [{ request := q, status := a.status, info := info }]
        responses := s.responses ++ [{ status := a.status, result := 0#2, resultValid := false }] }

/-- Every step gives exactly one response, or holds the operation, or waits for a request; ERR is the status of the
response; a result is valid only from QUANTIZE and PACK_PIXEL that complete with OK, and is RES and the palette index; a
request is consumed exactly when none is held (R77, R78). The list of responses is the model's (log 12). -/
def Obligations.ExactlyOneResponsePerRequest : Prop :=
  ∀ s t : State, step s = .next t →
    (s.inflight = none ∧ s.requests = [] ∧ t = s) ∨
    ((s.inflight = none → t.requests = s.requests.tail) ∧ (s.inflight ≠ none → t.requests = s.requests) ∧
      ((t.responses = s.responses ∧ t.inflight ≠ none) ∨
        ∃ a, t.responses = s.responses ++ [a] ∧ t.inflight = none ∧ t.err = a.status ∧
          (a.resultValid = false → a.result = 0#2) ∧
          (a.resultValid = true → a.status = .ok ∧ a.result = t.res ∧ t.resValid = true ∧
            ∃ q rest r g b x y, s.requests = q :: rest ∧ a.result = quantizeIndex s.cfg r g b x.toNat y.toNat ∧
              (decode q = .ok (.quantize r g b x y) ∨ decode q = .ok (.packPixel r g b x y)))))

/-- `Sleeping` is terminal for every operation except RESET (R170). -/
def Obligations.OnlyResetLeavesSleeping : Prop :=
  ∀ s t : State, s.inflight = none → s.dstate = .sleeping → step s = .next t → t.dstate ≠ .sleeping →
    ∃ rest, s.requests = 0x8000000000000000#64 :: rest ∧ t.dstate = .awaitingReset

/-- The state graph (R173): `Ready` is entered only by INITIALIZE from `AwaitingReset`, by the end of REFRESH's second wait
or of CLEAR's third. -/
def Obligations.ReadyIsEnteredOnlyThree : Prop :=
  ∀ s t : State, step s = .next t → s.dstate ≠ .ready → t.dstate = .ready →
    (s.inflight = none ∧ s.dstate = .awaitingReset ∧ ∃ rest, s.requests = 0x9000000000000000#64 :: rest) ∨
    (∃ h, s.inflight = some h ∧ (h.point = .refreshSecond ∨ ∃ c, h.point = .clearThird c) ∧
      Config.busySample s.busySamples = s.cfg.busyDoneLevel)

/-- Only FB_ALLOC, PACK_INDEX, PACK_PIXEL, PACK_PAD and CLEAR change the framebuffer, and the packs only one byte, at the
offset of their pixel (R27, R52). -/
def Obligations.OnlyFiveOperationsWriteTheFramebuffer : Prop :=
  ∀ (s t : State) (a : Nat), step s = .next t → t.fbByte a ≠ s.fbByte a →
    s.inflight = none ∧ ∃ q rest i, s.requests = q :: rest ∧ decode q = .ok i ∧
      (i = .fbAlloc ∨ (∃ c, i = .clearPanel c) ∨
        ∃ x y : Coord, a = byteOffset x.toNat y.toNat ∧ x.toNat < W ∧ y.toNat < H ∧ s.fbOwned = true ∧
          ((∃ idx, i = .packIndex idx x y) ∨ (∃ r g b, i = .packPixel r g b x y) ∨ i = .packPad x y))

/-- Only FB_ALLOC and CLEAR make a framebuffer alive; only FB_DISCARD, the end of a transmission (the done level in the wait
of WRITE_FRAMEBUFFER or in CLEAR's first) and a WRITE_FRAMEBUFFER or CLEAR aborted at the limit of a wait end it (R24, R166,
R206). That a sample is `Config.busySample` of a counter is the model's choice (log 4). -/
def Obligations.OwnershipChangesHands : Prop :=
  ∀ s t : State, step s = .next t →
    (s.fbOwned = false → t.fbOwned = true → s.inflight = none ∧ ∃ q rest, s.requests = q :: rest ∧
      (decode q = .ok .fbAlloc ∨ ∃ c, decode q = .ok (.clearPanel c))) ∧
    (s.fbOwned = true → t.fbOwned = false →
      (s.inflight = none ∧ ∃ q rest, s.requests = q :: rest ∧ decode q = .ok .fbDiscard) ∨
      ∃ h, s.inflight = some h ∧
        ((Config.busySample s.busySamples = s.cfg.busyDoneLevel ∧
            (h.point = .writeFramebuffer ∨ ∃ c, h.point = .clearFirst c)) ∨
          (Config.busySample s.busySamples ≠ s.cfg.busyDoneLevel ∧
            PollLimit.reached s.cfg.busyTimeout (h.polls + 1) = true ∧ t.err = .deviceTimeout ∧
            h.point ≠ .refreshFirst ∧ h.point ≠ .refreshSecond)))

/-- RES and RES_VALID are written only by QUANTIZE and PACK_PIXEL that complete with OK (R25). -/
def Obligations.OnlyResultsWriteRes : Prop :=
  ∀ s t : State, step s = .next t → (t.res ≠ s.res ∨ t.resValid ≠ s.resValid) →
    s.inflight = none ∧ t.err = .ok ∧ t.resValid = true ∧ ∃ q rest r g b x y, s.requests = q :: rest ∧
      (decode q = .ok (.quantize r g b x y) ∨ decode q = .ok (.packPixel r g b x y))

/-- The tables are never written (R28, R233); TRACE, ERRLOG and the responses are only appended to, FAULTED is never
cleared (R33, R140), and the counters of the model's free values never go back. -/
def Obligations.HistoryOnlyGrows : Prop :=
  ∀ s t : State, step s = .next t →
    t.cfg = s.cfg ∧ s.trace <+: t.trace ∧ s.errlog <+: t.errlog ∧ s.responses <+: t.responses ∧
    (s.faulted = true → t.faulted = true) ∧
    s.busySamples ≤ t.busySamples ∧ s.allocDraws ≤ t.allocDraws ∧ s.fbGen ≤ t.fbGen

/-- Every step keeps the control invariant: the framebuffer's canonical form, a held operation that fits the state, and
`Refreshing` only during a hold (R23, R24, R29, R173). The canonical form and `step` are the model's (log 3, log 10). -/
def Obligations.StepKeepsLegal : Prop :=
  ∀ s t : State, Legal s → step s = .next t → Legal t

/-- Every step keeps ERRLOG, ERR and FAULTED in agreement with the responses (R26, R33, R203). -/
def Obligations.StepKeepsRecordsAgree : Prop :=
  ∀ s t : State, RecordsAgree s → step s = .next t → RecordsAgree t

/-- The power-on state meets both invariants. -/
def Obligations.PowerOnMeetsTheInvariants : Prop :=
  Legal State.reset ∧ RecordsAgree State.reset

/-- The values R230 gives at power-on: the spec's own, with nothing said of the levels, of RES or of the contents of FB.
`Config.installed` is the model's name for the configuration (log 6). -/
def Obligations.PowerOnState : Prop :=
  State.reset.dstate = .uninitialized ∧ State.reset.fbOwned = false ∧ State.reset.resValid = false ∧
  State.reset.err = .ok ∧ State.reset.inflight = none ∧ State.reset.trace = [] ∧ State.reset.fbw = 0#NPIX ∧
  State.reset.errlog = [] ∧ State.reset.faulted = false ∧ State.reset.cfg = Config.installed ∧
  State.reset.readRes = .error .resNotValid

/-- The feed never issues PACK_PAD for a column of the panel, whichever way round it reads a row: with 168 pixels of three
bytes no column is padding (R8(d), R8(e)). The feed is outside the block (log 19). -/
def Obligations.FeedNeverPads : Prop :=
  ∀ (c : Config) (row : List Byte) (x y : Nat), x < W → ∃ r g b,
    feedPixel c row x y = .packPixel r g b (BitVec.ofNat 16 x) (BitVec.ofNat 16 y)

/-- The feed of any image, on an owned framebuffer: it completes, and panel pixel `(x, y)` then holds the quantizer's index
of its source pixel, which is in the row read as number `H-1-y`, at the column `MIRROR_X` takes, in the channel order of
`SRC_PIXEL_ORDER`, with every byte the source did not give read as 0; every pixel is marked written (R8). The feed is
outside the block (log 19). -/
def Obligations.FeedPacksItsSource : Prop :=
  ∀ (s : State) (rows : List (List Byte)), s.fbOwned = true →
    ∃ t, runAll (feedImage s.cfg rows).requests s = some t ∧ t.fbOwned = true ∧ t.fbw = BitVec.allOnes NPIX ∧
      ∀ x y, x < W → y < H →
        let row := rows.getD (399 - y) []
        let col := if s.cfg.mirrorX then 167 - x else x
        let p := channels s.cfg.srcPixelOrder (row.getD (3 * col) 0) (row.getD (3 * col + 1) 0) (row.getD (3 * col + 2) 0)
        t.fbPixel x y = quantizeIndex s.cfg p.r p.g p.b x y

/-- An image with a truncated row is recorded, packed, discarded and never displayed. Its requests are FB_ALLOC, the packs of
its feed, FB_DISCARD and the fallback cycle, with no WRITE_FRAMEBUFFER; and where the allocation succeeds every one of them
does: after the packs every pixel is written, FB_DISCARD gives the framebuffer up with nothing of it on the bus, and CLEAR
is held at its first wait with the fallback's byte everywhere, no fault or error having been recorded (R8(f), R10, R211).
The feed and the host are outside the block, and one error for each short row is the model's choice (log 19), as are RESET
and INITIALIZE before the fallback CLEAR (log 21) and the form of the draw (log 5). -/
def Obligations.DegradedRenderIsDiscarded : Prop :=
  ∀ (s : State) (color : Byte) (rows : List (List Byte)) (k : Nat), k < H → (rows.getD k []).length < 504 →
    s.fbOwned = false → s.cfg.allocMayFail = false ∨ Config.allocDraw s.allocDraws = true →
    FeedError.truncatedStream k ∈ (feedImage s.cfg rows).errors ∧ (feedImage s.cfg rows).degraded = true ∧
    imageRequests color (feedImage s.cfg rows) =
      .fbAlloc :: ((feedImage s.cfg rows).requests ++
        [.fbDiscard, .resetPanel, .initializePanel, .clearPanel color]) ∧
    .writeFramebuffer ∉ imageRequests color (feedImage s.cfg rows) ∧
    ∃ p d t, runAll (.fbAlloc :: (feedImage s.cfg rows).requests) s = some p ∧
      p.fbOwned = true ∧ p.fbw = BitVec.allOnes NPIX ∧ p.trace = s.trace ∧ p.err = .ok ∧
      exec .fbDiscard p = .next d ∧ d.fbOwned = false ∧ d.trace = s.trace ∧ d.err = .ok ∧
      runAll (imageRequests color (feedImage s.cfg rows)) s = some t ∧
      t.trace = s.trace ++ resetEvents ++ s.cfg.initSeq.flatMap entryEvents ++ entryEvents s.cfg.startTx ∧
      (∀ a, a < NFB → t.fbByte a = color) ∧ t.dstate = .transmitting ∧
      t.inflight.map (·.point) = some (.clearFirst color) ∧
      t.err = .ok ∧ t.errlog = s.errlog ∧ t.faulted = s.faulted

/-- An image all of whose rows are whole is recorded without an error, and its requests are the packs of its feed on a
fresh framebuffer and then RENDER (R8(f), R86, R234). The feed and the host are outside the block (log 19). -/
def Obligations.WholeImageIsRendered : Prop :=
  ∀ (c : Config) (color : Byte) (rows : List (List Byte)), (∀ k, k < H → 504 ≤ (rows.getD k []).length) →
    (feedImage c rows).errors = [] ∧
    imageRequests color (feedImage c rows) =
      .fbAlloc :: ((feedImage c rows).requests ++ [.resetPanel, .initializePanel, .writeFramebuffer, .refreshPanel])
end

