-- ==== Sys2Proof/Laws/Decode.lean ====
section
/-! SUPPORT. What a row of the opcode table matches, and what the decoder can answer. -/

namespace Sys2Proof

theorem append_parts {v w : Nat} {a a' : BitVec v} {b b' : BitVec w} (h : a ++ b = a' ++ b') : a = a' ∧ b = b' := by
  constructor
  · have := congrArg (fun z => z.extractLsb' w v) h
    simpa [BitVec.extractLsb'_append_eq_of_le (Nat.le_refl w)] using this
  · have := congrArg (fun z => z.extractLsb' 0 w) h
    simpa [BitVec.extractLsb'_append_eq_of_add_le (show 0 + w ≤ w by omega)] using this

/-- A mask over the opcode and the reserved bits leaves exactly those. -/
theorem masked_parts_iff {k n : Nat} (a : BitVec 4) (b : BitVec k) (c : BitVec n) (op : BitVec 4) :
    ((a ++ b ++ c) &&& (BitVec.allOnes 4 ++ BitVec.allOnes k ++ 0#n) = (op ++ 0#k ++ 0#n)) ↔ a = op ∧ b = 0#k := by
  rw [BitVec.and_append, BitVec.and_append, BitVec.and_allOnes, BitVec.and_allOnes, BitVec.and_zero]
  constructor
  · intro h
    exact append_parts (append_parts h).1
  · rintro ⟨rfl, rfl⟩; rfl

/-- A word is its opcode, the `k` bits below it and the `n` bits below those. -/
theorem word_parts (q : BitVec 64) (k n : Nat) (h : 64 = 4 + k + n) :
    q = BitVec.cast h.symm (q.extractLsb' (k + n) 4 ++ q.extractLsb' n k ++ q.extractLsb' 0 n) := by
  apply BitVec.eq_of_getLsbD_eq; intro i hi
  simp only [BitVec.getLsbD_cast, BitVec.getLsbD_append, BitVec.getLsbD_extractLsb', Nat.zero_add]
  split
  · simp [*]
  · split
    · rename_i h1 h2
      have e : n + (i - n) = i := by omega
      simp [h2, e]
    · have e : k + n + (i - n - k) = i := by omega
      rw [e]; simp; intro _; omega

theorem masked_word_iff (q m p : BitVec 64) (op : BitVec 4) (k n : Nat) (h : 64 = 4 + k + n)
    (hm : m = BitVec.cast h.symm (BitVec.allOnes 4 ++ BitVec.allOnes k ++ 0#n))
    (hp : p = BitVec.cast h.symm (op ++ 0#k ++ 0#n)) :
    ((q &&& m == p) = true) ↔ q.extractLsb' (k + n) 4 = op ∧ q.extractLsb' n k = 0#k := by
  rw [beq_iff_eq]
  subst hm hp
  rw [← masked_parts_iff (c := q.extractLsb' 0 n)]
  have hc : ∀ {w : Nat} (e : w = 64) (a b c : BitVec w),
      (BitVec.cast e a &&& BitVec.cast e b = BitVec.cast e c) ↔ a &&& b = c := by
    intro w e a b c; subst e; rfl
  conv_lhs => rw [word_parts q k n h]
  exact hc h.symm _ _ _

/-- A row of the table matches the words with its opcode and zero in every bit its format reserves (R80, R81, R84). -/
theorem row_matches_iff (q : RequestWord) {row : OpcodeRow} (hr : row ∈ opcodeTable) :
    row.matches q = true ↔
      q.extractLsb' 60 4 = row.operation.opcode ∧ reservedClear row.operation.format q = true := by
  simp only [opcodeTable, List.mem_cons, List.not_mem_nil, or_false] at hr
  unfold reservedClear
  rcases hr with rfl | rfl | rfl | rfl | rfl | rfl | rfl | rfl | rfl | rfl | rfl | rfl <;>
    simp only [OpcodeRow.matches, Operation.opcode, Operation.format]
  · rw [masked_word_iff _ _ _ 1 4 56 rfl (by decide) (by decide)]; simp
  · rw [masked_word_iff _ _ _ 2 4 56 rfl (by decide) (by decide)]; simp
  · rw [masked_word_iff _ _ _ 3 26 34 rfl (by decide) (by decide)]; simp
  · rw [masked_word_iff _ _ _ 4 28 32 rfl (by decide) (by decide)]; simp
  · rw [masked_word_iff _ _ _ 5 60 0 rfl (by decide) (by decide)]; simp
  · rw [masked_word_iff _ _ _ 6 60 0 rfl (by decide) (by decide)]; simp
  · rw [masked_word_iff _ _ _ 8 60 0 rfl (by decide) (by decide)]; simp
  · rw [masked_word_iff _ _ _ 9 60 0 rfl (by decide) (by decide)]; simp
  · rw [masked_word_iff _ _ _ 0xA 60 0 rfl (by decide) (by decide)]; simp
  · rw [masked_word_iff _ _ _ 0xB 60 0 rfl (by decide) (by decide)]; simp
  · rw [masked_word_iff _ _ _ 0xC 60 0 rfl (by decide) (by decide)]; simp
  · rw [masked_word_iff _ _ _ 0xD 52 8 rfl (by decide) (by decide)]; simp

/-- No two rows have one opcode (R84 "rows are disjoint"). -/
theorem opcodes_disjoint : opcodeTable.Pairwise fun a b => a.operation.opcode ≠ b.operation.opcode := by
  decide

theorem operationOfOpcode_opcode (op : Operation) : operationOfOpcode op.opcode = some op := by
  cases op <;> rfl

theorem opcode_of_operationOfOpcode {v : BitVec 4} {op : Operation} (h : operationOfOpcode v = some op) :
    op.opcode = v := by
  revert v op; decide

/-- Every operation has its row. -/
theorem row_of_operation (op : Operation) : ∃ row ∈ opcodeTable, row.operation = op := by
  have h : opcodeTable.any (fun row => row.operation = op) = true := by cases op <;> rfl
  simpa using h

/-- What the decoder can answer (R84): the instruction a matching row builds, or a refusal that no row matches. -/
theorem decode_cases (q : RequestWord) :
    (∃ row ∈ opcodeTable, row.matches q = true ∧ decode q = .ok (row.build q)) ∨
    ((∀ row ∈ opcodeTable, row.matches q = false) ∧
      decode q = .error (if opcodeAssigned q then .reservedBits else .reservedOpcode)) := by
  unfold decode
  cases h : opcodeTable.find? (·.matches q) with
  | some row => exact .inl ⟨row, List.mem_of_find?_eq_some h, by simpa using List.find?_some h, rfl⟩
  | none =>
    refine .inr ⟨fun row hr => ?_, rfl⟩
    simpa using List.find?_eq_none.mp h row hr

end Sys2Proof
end

