-- ==== Sys2Proof/Laws/State.lean ====
section
/-! SUPPORT. What each update of the state leaves in each field: one lemma for each field and update, so that no later
proof unfolds a record update. -/

namespace Sys2Proof.Machine


/-! ### `setFbByte` -/

@[simp] theorem State.setFbByte_dstate (s : State) (a : Nat) (v : Byte) : (s.setFbByte a v).dstate = s.dstate := (rfl)
@[simp] theorem State.setFbByte_fbOwned (s : State) (a : Nat) (v : Byte) : (s.setFbByte a v).fbOwned = s.fbOwned := (rfl)
@[simp] theorem State.setFbByte_res (s : State) (a : Nat) (v : Byte) : (s.setFbByte a v).res = s.res := (rfl)
@[simp] theorem State.setFbByte_resValid (s : State) (a : Nat) (v : Byte) : (s.setFbByte a v).resValid = s.resValid := (rfl)
@[simp] theorem State.setFbByte_err (s : State) (a : Nat) (v : Byte) : (s.setFbByte a v).err = s.err := (rfl)
@[simp] theorem State.setFbByte_fb (s : State) (a : Nat) (v : Byte) : (s.setFbByte a v).fb = Memory.write s.fbDrawn s.fb a v := (rfl)
@[simp] theorem State.setFbByte_inflight (s : State) (a : Nat) (v : Byte) : (s.setFbByte a v).inflight = s.inflight := (rfl)
@[simp] theorem State.setFbByte_rst (s : State) (a : Nat) (v : Byte) : (s.setFbByte a v).rst = s.rst := (rfl)
@[simp] theorem State.setFbByte_dc (s : State) (a : Nat) (v : Byte) : (s.setFbByte a v).dc = s.dc := (rfl)
@[simp] theorem State.setFbByte_cs (s : State) (a : Nat) (v : Byte) : (s.setFbByte a v).cs = s.cs := (rfl)
@[simp] theorem State.setFbByte_cfg (s : State) (a : Nat) (v : Byte) : (s.setFbByte a v).cfg = s.cfg := (rfl)
@[simp] theorem State.setFbByte_trace (s : State) (a : Nat) (v : Byte) : (s.setFbByte a v).trace = s.trace := (rfl)
@[simp] theorem State.setFbByte_fbw (s : State) (a : Nat) (v : Byte) : (s.setFbByte a v).fbw = s.fbw := (rfl)
@[simp] theorem State.setFbByte_errlog (s : State) (a : Nat) (v : Byte) : (s.setFbByte a v).errlog = s.errlog := (rfl)
@[simp] theorem State.setFbByte_faulted (s : State) (a : Nat) (v : Byte) : (s.setFbByte a v).faulted = s.faulted := (rfl)
@[simp] theorem State.setFbByte_requests (s : State) (a : Nat) (v : Byte) : (s.setFbByte a v).requests = s.requests := (rfl)
@[simp] theorem State.setFbByte_responses (s : State) (a : Nat) (v : Byte) : (s.setFbByte a v).responses = s.responses := (rfl)
@[simp] theorem State.setFbByte_busySamples (s : State) (a : Nat) (v : Byte) : (s.setFbByte a v).busySamples = s.busySamples := (rfl)
@[simp] theorem State.setFbByte_allocDraws (s : State) (a : Nat) (v : Byte) : (s.setFbByte a v).allocDraws = s.allocDraws := (rfl)
@[simp] theorem State.setFbByte_fbGen (s : State) (a : Nat) (v : Byte) : (s.setFbByte a v).fbGen = s.fbGen := (rfl)
@[simp] theorem State.setFbByte_fbDrawn (s : State) (a : Nat) (v : Byte) : (s.setFbByte a v).fbDrawn = s.fbDrawn := (rfl)

/-! ### `fillFb` -/

@[simp] theorem State.fillFb_dstate (s : State) (c : Byte) : (s.fillFb c).dstate = s.dstate := (rfl)
@[simp] theorem State.fillFb_fbOwned (s : State) (c : Byte) : (s.fillFb c).fbOwned = s.fbOwned := (rfl)
@[simp] theorem State.fillFb_res (s : State) (c : Byte) : (s.fillFb c).res = s.res := (rfl)
@[simp] theorem State.fillFb_resValid (s : State) (c : Byte) : (s.fillFb c).resValid = s.resValid := (rfl)
@[simp] theorem State.fillFb_err (s : State) (c : Byte) : (s.fillFb c).err = s.err := (rfl)
@[simp] theorem State.fillFb_fb (s : State) (c : Byte) : (s.fillFb c).fb = Memory.fill s.fbDrawn c := (rfl)
@[simp] theorem State.fillFb_inflight (s : State) (c : Byte) : (s.fillFb c).inflight = s.inflight := (rfl)
@[simp] theorem State.fillFb_rst (s : State) (c : Byte) : (s.fillFb c).rst = s.rst := (rfl)
@[simp] theorem State.fillFb_dc (s : State) (c : Byte) : (s.fillFb c).dc = s.dc := (rfl)
@[simp] theorem State.fillFb_cs (s : State) (c : Byte) : (s.fillFb c).cs = s.cs := (rfl)
@[simp] theorem State.fillFb_cfg (s : State) (c : Byte) : (s.fillFb c).cfg = s.cfg := (rfl)
@[simp] theorem State.fillFb_trace (s : State) (c : Byte) : (s.fillFb c).trace = s.trace := (rfl)
@[simp] theorem State.fillFb_fbw (s : State) (c : Byte) : (s.fillFb c).fbw = s.fbw := (rfl)
@[simp] theorem State.fillFb_errlog (s : State) (c : Byte) : (s.fillFb c).errlog = s.errlog := (rfl)
@[simp] theorem State.fillFb_faulted (s : State) (c : Byte) : (s.fillFb c).faulted = s.faulted := (rfl)
@[simp] theorem State.fillFb_requests (s : State) (c : Byte) : (s.fillFb c).requests = s.requests := (rfl)
@[simp] theorem State.fillFb_responses (s : State) (c : Byte) : (s.fillFb c).responses = s.responses := (rfl)
@[simp] theorem State.fillFb_busySamples (s : State) (c : Byte) : (s.fillFb c).busySamples = s.busySamples := (rfl)
@[simp] theorem State.fillFb_allocDraws (s : State) (c : Byte) : (s.fillFb c).allocDraws = s.allocDraws := (rfl)
@[simp] theorem State.fillFb_fbGen (s : State) (c : Byte) : (s.fillFb c).fbGen = s.fbGen := (rfl)
@[simp] theorem State.fillFb_fbDrawn (s : State) (c : Byte) : (s.fillFb c).fbDrawn = s.fbDrawn := (rfl)

/-! ### `drawFb` -/

@[simp] theorem State.drawFb_dstate (s : State) : s.drawFb.dstate = s.dstate := (rfl)
@[simp] theorem State.drawFb_fbOwned (s : State) : s.drawFb.fbOwned = s.fbOwned := (rfl)
@[simp] theorem State.drawFb_res (s : State) : s.drawFb.res = s.res := (rfl)
@[simp] theorem State.drawFb_resValid (s : State) : s.drawFb.resValid = s.resValid := (rfl)
@[simp] theorem State.drawFb_err (s : State) : s.drawFb.err = s.err := (rfl)
@[simp] theorem State.drawFb_fb (s : State) : s.drawFb.fb = [] := (rfl)
@[simp] theorem State.drawFb_inflight (s : State) : s.drawFb.inflight = s.inflight := (rfl)
@[simp] theorem State.drawFb_rst (s : State) : s.drawFb.rst = s.rst := (rfl)
@[simp] theorem State.drawFb_dc (s : State) : s.drawFb.dc = s.dc := (rfl)
@[simp] theorem State.drawFb_cs (s : State) : s.drawFb.cs = s.cs := (rfl)
@[simp] theorem State.drawFb_cfg (s : State) : s.drawFb.cfg = s.cfg := (rfl)
@[simp] theorem State.drawFb_trace (s : State) : s.drawFb.trace = s.trace := (rfl)
@[simp] theorem State.drawFb_fbw (s : State) : s.drawFb.fbw = s.fbw := (rfl)
@[simp] theorem State.drawFb_errlog (s : State) : s.drawFb.errlog = s.errlog := (rfl)
@[simp] theorem State.drawFb_faulted (s : State) : s.drawFb.faulted = s.faulted := (rfl)
@[simp] theorem State.drawFb_requests (s : State) : s.drawFb.requests = s.requests := (rfl)
@[simp] theorem State.drawFb_responses (s : State) : s.drawFb.responses = s.responses := (rfl)
@[simp] theorem State.drawFb_busySamples (s : State) : s.drawFb.busySamples = s.busySamples := (rfl)
@[simp] theorem State.drawFb_allocDraws (s : State) : s.drawFb.allocDraws = s.allocDraws := (rfl)
@[simp] theorem State.drawFb_fbGen (s : State) : s.drawFb.fbGen = s.fbGen + 1 := (rfl)

/-! ### `markWritten` -/

@[simp] theorem State.markWritten_dstate (s : State) (p : Nat) : (s.markWritten p).dstate = s.dstate := (rfl)
@[simp] theorem State.markWritten_fbOwned (s : State) (p : Nat) : (s.markWritten p).fbOwned = s.fbOwned := (rfl)
@[simp] theorem State.markWritten_res (s : State) (p : Nat) : (s.markWritten p).res = s.res := (rfl)
@[simp] theorem State.markWritten_resValid (s : State) (p : Nat) : (s.markWritten p).resValid = s.resValid := (rfl)
@[simp] theorem State.markWritten_err (s : State) (p : Nat) : (s.markWritten p).err = s.err := (rfl)
@[simp] theorem State.markWritten_fb (s : State) (p : Nat) : (s.markWritten p).fb = s.fb := (rfl)
@[simp] theorem State.markWritten_inflight (s : State) (p : Nat) : (s.markWritten p).inflight = s.inflight := (rfl)
@[simp] theorem State.markWritten_rst (s : State) (p : Nat) : (s.markWritten p).rst = s.rst := (rfl)
@[simp] theorem State.markWritten_dc (s : State) (p : Nat) : (s.markWritten p).dc = s.dc := (rfl)
@[simp] theorem State.markWritten_cs (s : State) (p : Nat) : (s.markWritten p).cs = s.cs := (rfl)
@[simp] theorem State.markWritten_cfg (s : State) (p : Nat) : (s.markWritten p).cfg = s.cfg := (rfl)
@[simp] theorem State.markWritten_trace (s : State) (p : Nat) : (s.markWritten p).trace = s.trace := (rfl)
@[simp] theorem State.markWritten_fbw (s : State) (p : Nat) : (s.markWritten p).fbw = s.fbw ||| BitVec.twoPow NPIX p := (rfl)
@[simp] theorem State.markWritten_errlog (s : State) (p : Nat) : (s.markWritten p).errlog = s.errlog := (rfl)
@[simp] theorem State.markWritten_faulted (s : State) (p : Nat) : (s.markWritten p).faulted = s.faulted := (rfl)
@[simp] theorem State.markWritten_requests (s : State) (p : Nat) : (s.markWritten p).requests = s.requests := (rfl)
@[simp] theorem State.markWritten_responses (s : State) (p : Nat) : (s.markWritten p).responses = s.responses := (rfl)
@[simp] theorem State.markWritten_busySamples (s : State) (p : Nat) : (s.markWritten p).busySamples = s.busySamples := (rfl)
@[simp] theorem State.markWritten_allocDraws (s : State) (p : Nat) : (s.markWritten p).allocDraws = s.allocDraws := (rfl)
@[simp] theorem State.markWritten_fbGen (s : State) (p : Nat) : (s.markWritten p).fbGen = s.fbGen := (rfl)
@[simp] theorem State.markWritten_fbDrawn (s : State) (p : Nat) : (s.markWritten p).fbDrawn = s.fbDrawn := (rfl)
@[simp] theorem State.markWritten_fbByte (s : State) (p : Nat) : (s.markWritten p).fbByte = s.fbByte := (rfl)

/-! ### `pack` -/

@[simp] theorem State.pack_dstate (s : State) (x y : Nat) (idx : BitVec 2) : (s.pack x y idx).dstate = s.dstate := (rfl)
@[simp] theorem State.pack_fbOwned (s : State) (x y : Nat) (idx : BitVec 2) : (s.pack x y idx).fbOwned = s.fbOwned := (rfl)
@[simp] theorem State.pack_res (s : State) (x y : Nat) (idx : BitVec 2) : (s.pack x y idx).res = s.res := (rfl)
@[simp] theorem State.pack_resValid (s : State) (x y : Nat) (idx : BitVec 2) : (s.pack x y idx).resValid = s.resValid := (rfl)
@[simp] theorem State.pack_err (s : State) (x y : Nat) (idx : BitVec 2) : (s.pack x y idx).err = s.err := (rfl)
@[simp] theorem State.pack_fb (s : State) (x y : Nat) (idx : BitVec 2) : (s.pack x y idx).fb = Memory.write s.fbDrawn s.fb (byteOffset x y) (setPixelBits (s.fbByte (byteOffset x y)) (bitShift x) idx) := (rfl)
@[simp] theorem State.pack_inflight (s : State) (x y : Nat) (idx : BitVec 2) : (s.pack x y idx).inflight = s.inflight := (rfl)
@[simp] theorem State.pack_rst (s : State) (x y : Nat) (idx : BitVec 2) : (s.pack x y idx).rst = s.rst := (rfl)
@[simp] theorem State.pack_dc (s : State) (x y : Nat) (idx : BitVec 2) : (s.pack x y idx).dc = s.dc := (rfl)
@[simp] theorem State.pack_cs (s : State) (x y : Nat) (idx : BitVec 2) : (s.pack x y idx).cs = s.cs := (rfl)
@[simp] theorem State.pack_cfg (s : State) (x y : Nat) (idx : BitVec 2) : (s.pack x y idx).cfg = s.cfg := (rfl)
@[simp] theorem State.pack_trace (s : State) (x y : Nat) (idx : BitVec 2) : (s.pack x y idx).trace = s.trace := (rfl)
@[simp] theorem State.pack_fbw (s : State) (x y : Nat) (idx : BitVec 2) : (s.pack x y idx).fbw = s.fbw ||| BitVec.twoPow NPIX (pixelNumber x y) := (rfl)
@[simp] theorem State.pack_errlog (s : State) (x y : Nat) (idx : BitVec 2) : (s.pack x y idx).errlog = s.errlog := (rfl)
@[simp] theorem State.pack_faulted (s : State) (x y : Nat) (idx : BitVec 2) : (s.pack x y idx).faulted = s.faulted := (rfl)
@[simp] theorem State.pack_requests (s : State) (x y : Nat) (idx : BitVec 2) : (s.pack x y idx).requests = s.requests := (rfl)
@[simp] theorem State.pack_responses (s : State) (x y : Nat) (idx : BitVec 2) : (s.pack x y idx).responses = s.responses := (rfl)
@[simp] theorem State.pack_busySamples (s : State) (x y : Nat) (idx : BitVec 2) : (s.pack x y idx).busySamples = s.busySamples := (rfl)
@[simp] theorem State.pack_allocDraws (s : State) (x y : Nat) (idx : BitVec 2) : (s.pack x y idx).allocDraws = s.allocDraws := (rfl)
@[simp] theorem State.pack_fbGen (s : State) (x y : Nat) (idx : BitVec 2) : (s.pack x y idx).fbGen = s.fbGen := (rfl)
@[simp] theorem State.pack_fbDrawn (s : State) (x y : Nat) (idx : BitVec 2) : (s.pack x y idx).fbDrawn = s.fbDrawn := (rfl)

/-! ### `setRes` -/

@[simp] theorem State.setRes_dstate (s : State) (idx : BitVec 2) : (s.setRes idx).dstate = s.dstate := (rfl)
@[simp] theorem State.setRes_fbOwned (s : State) (idx : BitVec 2) : (s.setRes idx).fbOwned = s.fbOwned := (rfl)
@[simp] theorem State.setRes_res (s : State) (idx : BitVec 2) : (s.setRes idx).res = idx := (rfl)
@[simp] theorem State.setRes_resValid (s : State) (idx : BitVec 2) : (s.setRes idx).resValid = true := (rfl)
@[simp] theorem State.setRes_err (s : State) (idx : BitVec 2) : (s.setRes idx).err = s.err := (rfl)
@[simp] theorem State.setRes_fb (s : State) (idx : BitVec 2) : (s.setRes idx).fb = s.fb := (rfl)
@[simp] theorem State.setRes_inflight (s : State) (idx : BitVec 2) : (s.setRes idx).inflight = s.inflight := (rfl)
@[simp] theorem State.setRes_rst (s : State) (idx : BitVec 2) : (s.setRes idx).rst = s.rst := (rfl)
@[simp] theorem State.setRes_dc (s : State) (idx : BitVec 2) : (s.setRes idx).dc = s.dc := (rfl)
@[simp] theorem State.setRes_cs (s : State) (idx : BitVec 2) : (s.setRes idx).cs = s.cs := (rfl)
@[simp] theorem State.setRes_cfg (s : State) (idx : BitVec 2) : (s.setRes idx).cfg = s.cfg := (rfl)
@[simp] theorem State.setRes_trace (s : State) (idx : BitVec 2) : (s.setRes idx).trace = s.trace := (rfl)
@[simp] theorem State.setRes_fbw (s : State) (idx : BitVec 2) : (s.setRes idx).fbw = s.fbw := (rfl)
@[simp] theorem State.setRes_errlog (s : State) (idx : BitVec 2) : (s.setRes idx).errlog = s.errlog := (rfl)
@[simp] theorem State.setRes_faulted (s : State) (idx : BitVec 2) : (s.setRes idx).faulted = s.faulted := (rfl)
@[simp] theorem State.setRes_requests (s : State) (idx : BitVec 2) : (s.setRes idx).requests = s.requests := (rfl)
@[simp] theorem State.setRes_responses (s : State) (idx : BitVec 2) : (s.setRes idx).responses = s.responses := (rfl)
@[simp] theorem State.setRes_busySamples (s : State) (idx : BitVec 2) : (s.setRes idx).busySamples = s.busySamples := (rfl)
@[simp] theorem State.setRes_allocDraws (s : State) (idx : BitVec 2) : (s.setRes idx).allocDraws = s.allocDraws := (rfl)
@[simp] theorem State.setRes_fbGen (s : State) (idx : BitVec 2) : (s.setRes idx).fbGen = s.fbGen := (rfl)
@[simp] theorem State.setRes_fbDrawn (s : State) (idx : BitVec 2) : (s.setRes idx).fbDrawn = s.fbDrawn := (rfl)
@[simp] theorem State.setRes_fbByte (s : State) (idx : BitVec 2) : (s.setRes idx).fbByte = s.fbByte := (rfl)

/-! ### `setDState` -/

@[simp] theorem State.setDState_dstate (s : State) (d : DState) : (s.setDState d).dstate = d := (rfl)
@[simp] theorem State.setDState_fbOwned (s : State) (d : DState) : (s.setDState d).fbOwned = s.fbOwned := (rfl)
@[simp] theorem State.setDState_res (s : State) (d : DState) : (s.setDState d).res = s.res := (rfl)
@[simp] theorem State.setDState_resValid (s : State) (d : DState) : (s.setDState d).resValid = s.resValid := (rfl)
@[simp] theorem State.setDState_err (s : State) (d : DState) : (s.setDState d).err = s.err := (rfl)
@[simp] theorem State.setDState_fb (s : State) (d : DState) : (s.setDState d).fb = s.fb := (rfl)
@[simp] theorem State.setDState_inflight (s : State) (d : DState) : (s.setDState d).inflight = s.inflight := (rfl)
@[simp] theorem State.setDState_rst (s : State) (d : DState) : (s.setDState d).rst = s.rst := (rfl)
@[simp] theorem State.setDState_dc (s : State) (d : DState) : (s.setDState d).dc = s.dc := (rfl)
@[simp] theorem State.setDState_cs (s : State) (d : DState) : (s.setDState d).cs = s.cs := (rfl)
@[simp] theorem State.setDState_cfg (s : State) (d : DState) : (s.setDState d).cfg = s.cfg := (rfl)
@[simp] theorem State.setDState_trace (s : State) (d : DState) : (s.setDState d).trace = s.trace := (rfl)
@[simp] theorem State.setDState_fbw (s : State) (d : DState) : (s.setDState d).fbw = s.fbw := (rfl)
@[simp] theorem State.setDState_errlog (s : State) (d : DState) : (s.setDState d).errlog = s.errlog := (rfl)
@[simp] theorem State.setDState_faulted (s : State) (d : DState) : (s.setDState d).faulted = s.faulted := (rfl)
@[simp] theorem State.setDState_requests (s : State) (d : DState) : (s.setDState d).requests = s.requests := (rfl)
@[simp] theorem State.setDState_responses (s : State) (d : DState) : (s.setDState d).responses = s.responses := (rfl)
@[simp] theorem State.setDState_busySamples (s : State) (d : DState) : (s.setDState d).busySamples = s.busySamples := (rfl)
@[simp] theorem State.setDState_allocDraws (s : State) (d : DState) : (s.setDState d).allocDraws = s.allocDraws := (rfl)
@[simp] theorem State.setDState_fbGen (s : State) (d : DState) : (s.setDState d).fbGen = s.fbGen := (rfl)
@[simp] theorem State.setDState_fbDrawn (s : State) (d : DState) : (s.setDState d).fbDrawn = s.fbDrawn := (rfl)
@[simp] theorem State.setDState_fbByte (s : State) (d : DState) : (s.setDState d).fbByte = s.fbByte := (rfl)

/-! ### `emit` -/

@[simp] theorem State.emit_dstate (s : State) (e : BusEvent) : (s.emit e).dstate = s.dstate := (rfl)
@[simp] theorem State.emit_fbOwned (s : State) (e : BusEvent) : (s.emit e).fbOwned = s.fbOwned := (rfl)
@[simp] theorem State.emit_res (s : State) (e : BusEvent) : (s.emit e).res = s.res := (rfl)
@[simp] theorem State.emit_resValid (s : State) (e : BusEvent) : (s.emit e).resValid = s.resValid := (rfl)
@[simp] theorem State.emit_err (s : State) (e : BusEvent) : (s.emit e).err = s.err := (rfl)
@[simp] theorem State.emit_fb (s : State) (e : BusEvent) : (s.emit e).fb = s.fb := (rfl)
@[simp] theorem State.emit_inflight (s : State) (e : BusEvent) : (s.emit e).inflight = s.inflight := (rfl)
@[simp] theorem State.emit_rst (s : State) (e : BusEvent) : (s.emit e).rst = s.rst := (rfl)
@[simp] theorem State.emit_dc (s : State) (e : BusEvent) : (s.emit e).dc = s.dc := (rfl)
@[simp] theorem State.emit_cs (s : State) (e : BusEvent) : (s.emit e).cs = s.cs := (rfl)
@[simp] theorem State.emit_cfg (s : State) (e : BusEvent) : (s.emit e).cfg = s.cfg := (rfl)
@[simp] theorem State.emit_trace (s : State) (e : BusEvent) : (s.emit e).trace = s.trace ++ [e] := (rfl)
@[simp] theorem State.emit_fbw (s : State) (e : BusEvent) : (s.emit e).fbw = s.fbw := (rfl)
@[simp] theorem State.emit_errlog (s : State) (e : BusEvent) : (s.emit e).errlog = s.errlog := (rfl)
@[simp] theorem State.emit_faulted (s : State) (e : BusEvent) : (s.emit e).faulted = s.faulted := (rfl)
@[simp] theorem State.emit_requests (s : State) (e : BusEvent) : (s.emit e).requests = s.requests := (rfl)
@[simp] theorem State.emit_responses (s : State) (e : BusEvent) : (s.emit e).responses = s.responses := (rfl)
@[simp] theorem State.emit_busySamples (s : State) (e : BusEvent) : (s.emit e).busySamples = s.busySamples := (rfl)
@[simp] theorem State.emit_allocDraws (s : State) (e : BusEvent) : (s.emit e).allocDraws = s.allocDraws := (rfl)
@[simp] theorem State.emit_fbGen (s : State) (e : BusEvent) : (s.emit e).fbGen = s.fbGen := (rfl)
@[simp] theorem State.emit_fbDrawn (s : State) (e : BusEvent) : (s.emit e).fbDrawn = s.fbDrawn := (rfl)
@[simp] theorem State.emit_fbByte (s : State) (e : BusEvent) : (s.emit e).fbByte = s.fbByte := (rfl)

/-! ### `respond` -/

@[simp] theorem State.respond_dstate (s : State) (st : Status) (r : Option (BitVec 2)) : (s.respond st r).dstate = s.dstate := (rfl)
@[simp] theorem State.respond_fbOwned (s : State) (st : Status) (r : Option (BitVec 2)) : (s.respond st r).fbOwned = s.fbOwned := (rfl)
@[simp] theorem State.respond_res (s : State) (st : Status) (r : Option (BitVec 2)) : (s.respond st r).res = s.res := (rfl)
@[simp] theorem State.respond_resValid (s : State) (st : Status) (r : Option (BitVec 2)) : (s.respond st r).resValid = s.resValid := (rfl)
@[simp] theorem State.respond_err (s : State) (st : Status) (r : Option (BitVec 2)) : (s.respond st r).err = st := (rfl)
@[simp] theorem State.respond_fb (s : State) (st : Status) (r : Option (BitVec 2)) : (s.respond st r).fb = s.fb := (rfl)
@[simp] theorem State.respond_inflight (s : State) (st : Status) (r : Option (BitVec 2)) : (s.respond st r).inflight = s.inflight := (rfl)
@[simp] theorem State.respond_rst (s : State) (st : Status) (r : Option (BitVec 2)) : (s.respond st r).rst = s.rst := (rfl)
@[simp] theorem State.respond_dc (s : State) (st : Status) (r : Option (BitVec 2)) : (s.respond st r).dc = s.dc := (rfl)
@[simp] theorem State.respond_cs (s : State) (st : Status) (r : Option (BitVec 2)) : (s.respond st r).cs = s.cs := (rfl)
@[simp] theorem State.respond_cfg (s : State) (st : Status) (r : Option (BitVec 2)) : (s.respond st r).cfg = s.cfg := (rfl)
@[simp] theorem State.respond_trace (s : State) (st : Status) (r : Option (BitVec 2)) : (s.respond st r).trace = s.trace := (rfl)
@[simp] theorem State.respond_fbw (s : State) (st : Status) (r : Option (BitVec 2)) : (s.respond st r).fbw = s.fbw := (rfl)
@[simp] theorem State.respond_errlog (s : State) (st : Status) (r : Option (BitVec 2)) : (s.respond st r).errlog = s.errlog := (rfl)
@[simp] theorem State.respond_faulted (s : State) (st : Status) (r : Option (BitVec 2)) : (s.respond st r).faulted = s.faulted := (rfl)
@[simp] theorem State.respond_requests (s : State) (st : Status) (r : Option (BitVec 2)) : (s.respond st r).requests = s.requests := (rfl)
@[simp] theorem State.respond_responses (s : State) (st : Status) (r : Option (BitVec 2)) : (s.respond st r).responses = s.responses ++ [responseOf st r] := (rfl)
@[simp] theorem State.respond_busySamples (s : State) (st : Status) (r : Option (BitVec 2)) : (s.respond st r).busySamples = s.busySamples := (rfl)
@[simp] theorem State.respond_allocDraws (s : State) (st : Status) (r : Option (BitVec 2)) : (s.respond st r).allocDraws = s.allocDraws := (rfl)
@[simp] theorem State.respond_fbGen (s : State) (st : Status) (r : Option (BitVec 2)) : (s.respond st r).fbGen = s.fbGen := (rfl)
@[simp] theorem State.respond_fbDrawn (s : State) (st : Status) (r : Option (BitVec 2)) : (s.respond st r).fbDrawn = s.fbDrawn := (rfl)
@[simp] theorem State.respond_fbByte (s : State) (st : Status) (r : Option (BitVec 2)) : (s.respond st r).fbByte = s.fbByte := (rfl)

/-! ### `raise` -/

@[simp] theorem State.raise_dstate (s : State) (q : RequestWord) (st : Status) (info : ErrInfo) : (s.raise q st info).dstate = s.dstate := (rfl)
@[simp] theorem State.raise_fbOwned (s : State) (q : RequestWord) (st : Status) (info : ErrInfo) : (s.raise q st info).fbOwned = s.fbOwned := (rfl)
@[simp] theorem State.raise_res (s : State) (q : RequestWord) (st : Status) (info : ErrInfo) : (s.raise q st info).res = s.res := (rfl)
@[simp] theorem State.raise_resValid (s : State) (q : RequestWord) (st : Status) (info : ErrInfo) : (s.raise q st info).resValid = s.resValid := (rfl)
@[simp] theorem State.raise_err (s : State) (q : RequestWord) (st : Status) (info : ErrInfo) : (s.raise q st info).err = st := (rfl)
@[simp] theorem State.raise_fb (s : State) (q : RequestWord) (st : Status) (info : ErrInfo) : (s.raise q st info).fb = s.fb := (rfl)
@[simp] theorem State.raise_inflight (s : State) (q : RequestWord) (st : Status) (info : ErrInfo) : (s.raise q st info).inflight = none := (rfl)
@[simp] theorem State.raise_rst (s : State) (q : RequestWord) (st : Status) (info : ErrInfo) : (s.raise q st info).rst = s.rst := (rfl)
@[simp] theorem State.raise_dc (s : State) (q : RequestWord) (st : Status) (info : ErrInfo) : (s.raise q st info).dc = s.dc := (rfl)
@[simp] theorem State.raise_cs (s : State) (q : RequestWord) (st : Status) (info : ErrInfo) : (s.raise q st info).cs = s.cs := (rfl)
@[simp] theorem State.raise_cfg (s : State) (q : RequestWord) (st : Status) (info : ErrInfo) : (s.raise q st info).cfg = s.cfg := (rfl)
@[simp] theorem State.raise_trace (s : State) (q : RequestWord) (st : Status) (info : ErrInfo) : (s.raise q st info).trace = s.trace := (rfl)
@[simp] theorem State.raise_fbw (s : State) (q : RequestWord) (st : Status) (info : ErrInfo) : (s.raise q st info).fbw = s.fbw := (rfl)
@[simp] theorem State.raise_errlog (s : State) (q : RequestWord) (st : Status) (info : ErrInfo) : (s.raise q st info).errlog = s.errlog ++ [⟨q, st, info⟩] := (rfl)
@[simp] theorem State.raise_faulted (s : State) (q : RequestWord) (st : Status) (info : ErrInfo) : (s.raise q st info).faulted = faultedAfter s.faulted st := (rfl)
@[simp] theorem State.raise_requests (s : State) (q : RequestWord) (st : Status) (info : ErrInfo) : (s.raise q st info).requests = s.requests := (rfl)
@[simp] theorem State.raise_responses (s : State) (q : RequestWord) (st : Status) (info : ErrInfo) : (s.raise q st info).responses = s.responses ++ [responseOf st none] := (rfl)
@[simp] theorem State.raise_busySamples (s : State) (q : RequestWord) (st : Status) (info : ErrInfo) : (s.raise q st info).busySamples = s.busySamples := (rfl)
@[simp] theorem State.raise_allocDraws (s : State) (q : RequestWord) (st : Status) (info : ErrInfo) : (s.raise q st info).allocDraws = s.allocDraws := (rfl)
@[simp] theorem State.raise_fbGen (s : State) (q : RequestWord) (st : Status) (info : ErrInfo) : (s.raise q st info).fbGen = s.fbGen := (rfl)
@[simp] theorem State.raise_fbDrawn (s : State) (q : RequestWord) (st : Status) (info : ErrInfo) : (s.raise q st info).fbDrawn = s.fbDrawn := (rfl)
@[simp] theorem State.raise_fbByte (s : State) (q : RequestWord) (st : Status) (info : ErrInfo) : (s.raise q st info).fbByte = s.fbByte := (rfl)

/-! ### `complete` -/

@[simp] theorem State.complete_dstate (s : State) : s.complete.dstate = s.dstate := (rfl)
@[simp] theorem State.complete_fbOwned (s : State) : s.complete.fbOwned = s.fbOwned := (rfl)
@[simp] theorem State.complete_res (s : State) : s.complete.res = s.res := (rfl)
@[simp] theorem State.complete_resValid (s : State) : s.complete.resValid = s.resValid := (rfl)
@[simp] theorem State.complete_err (s : State) : s.complete.err = .ok := (rfl)
@[simp] theorem State.complete_fb (s : State) : s.complete.fb = s.fb := (rfl)
@[simp] theorem State.complete_inflight (s : State) : s.complete.inflight = none := (rfl)
@[simp] theorem State.complete_rst (s : State) : s.complete.rst = s.rst := (rfl)
@[simp] theorem State.complete_dc (s : State) : s.complete.dc = s.dc := (rfl)
@[simp] theorem State.complete_cs (s : State) : s.complete.cs = s.cs := (rfl)
@[simp] theorem State.complete_cfg (s : State) : s.complete.cfg = s.cfg := (rfl)
@[simp] theorem State.complete_trace (s : State) : s.complete.trace = s.trace := (rfl)
@[simp] theorem State.complete_fbw (s : State) : s.complete.fbw = s.fbw := (rfl)
@[simp] theorem State.complete_errlog (s : State) : s.complete.errlog = s.errlog := (rfl)
@[simp] theorem State.complete_faulted (s : State) : s.complete.faulted = s.faulted := (rfl)
@[simp] theorem State.complete_requests (s : State) : s.complete.requests = s.requests := (rfl)
@[simp] theorem State.complete_responses (s : State) : s.complete.responses = s.responses ++ [responseOf .ok none] := (rfl)
@[simp] theorem State.complete_busySamples (s : State) : s.complete.busySamples = s.busySamples := (rfl)
@[simp] theorem State.complete_allocDraws (s : State) : s.complete.allocDraws = s.allocDraws := (rfl)
@[simp] theorem State.complete_fbGen (s : State) : s.complete.fbGen = s.fbGen := (rfl)
@[simp] theorem State.complete_fbDrawn (s : State) : s.complete.fbDrawn = s.fbDrawn := (rfl)
@[simp] theorem State.complete_fbByte (s : State) : s.complete.fbByte = s.fbByte := (rfl)

/-! ### `delay` -/

@[simp] theorem State.delay_dstate (s : State) (ms : Nat) : (s.delay ms).dstate = s.dstate := (rfl)
@[simp] theorem State.delay_fbOwned (s : State) (ms : Nat) : (s.delay ms).fbOwned = s.fbOwned := (rfl)
@[simp] theorem State.delay_res (s : State) (ms : Nat) : (s.delay ms).res = s.res := (rfl)
@[simp] theorem State.delay_resValid (s : State) (ms : Nat) : (s.delay ms).resValid = s.resValid := (rfl)
@[simp] theorem State.delay_err (s : State) (ms : Nat) : (s.delay ms).err = s.err := (rfl)
@[simp] theorem State.delay_fb (s : State) (ms : Nat) : (s.delay ms).fb = s.fb := (rfl)
@[simp] theorem State.delay_inflight (s : State) (ms : Nat) : (s.delay ms).inflight = s.inflight := (rfl)
@[simp] theorem State.delay_rst (s : State) (ms : Nat) : (s.delay ms).rst = s.rst := (rfl)
@[simp] theorem State.delay_dc (s : State) (ms : Nat) : (s.delay ms).dc = s.dc := (rfl)
@[simp] theorem State.delay_cs (s : State) (ms : Nat) : (s.delay ms).cs = s.cs := (rfl)
@[simp] theorem State.delay_cfg (s : State) (ms : Nat) : (s.delay ms).cfg = s.cfg := (rfl)
@[simp] theorem State.delay_trace (s : State) (ms : Nat) : (s.delay ms).trace = s.trace ++ [.delay ms] := (rfl)
@[simp] theorem State.delay_fbw (s : State) (ms : Nat) : (s.delay ms).fbw = s.fbw := (rfl)
@[simp] theorem State.delay_errlog (s : State) (ms : Nat) : (s.delay ms).errlog = s.errlog := (rfl)
@[simp] theorem State.delay_faulted (s : State) (ms : Nat) : (s.delay ms).faulted = s.faulted := (rfl)
@[simp] theorem State.delay_requests (s : State) (ms : Nat) : (s.delay ms).requests = s.requests := (rfl)
@[simp] theorem State.delay_responses (s : State) (ms : Nat) : (s.delay ms).responses = s.responses := (rfl)
@[simp] theorem State.delay_busySamples (s : State) (ms : Nat) : (s.delay ms).busySamples = s.busySamples := (rfl)
@[simp] theorem State.delay_allocDraws (s : State) (ms : Nat) : (s.delay ms).allocDraws = s.allocDraws := (rfl)
@[simp] theorem State.delay_fbGen (s : State) (ms : Nat) : (s.delay ms).fbGen = s.fbGen := (rfl)
@[simp] theorem State.delay_fbDrawn (s : State) (ms : Nat) : (s.delay ms).fbDrawn = s.fbDrawn := (rfl)
@[simp] theorem State.delay_fbByte (s : State) (ms : Nat) : (s.delay ms).fbByte = s.fbByte := (rfl)

/-! ### `driveRst` -/

@[simp] theorem State.driveRst_dstate (s : State) (w : RstWord) : (s.driveRst w).dstate = s.dstate := (rfl)
@[simp] theorem State.driveRst_fbOwned (s : State) (w : RstWord) : (s.driveRst w).fbOwned = s.fbOwned := (rfl)
@[simp] theorem State.driveRst_res (s : State) (w : RstWord) : (s.driveRst w).res = s.res := (rfl)
@[simp] theorem State.driveRst_resValid (s : State) (w : RstWord) : (s.driveRst w).resValid = s.resValid := (rfl)
@[simp] theorem State.driveRst_err (s : State) (w : RstWord) : (s.driveRst w).err = s.err := (rfl)
@[simp] theorem State.driveRst_fb (s : State) (w : RstWord) : (s.driveRst w).fb = s.fb := (rfl)
@[simp] theorem State.driveRst_inflight (s : State) (w : RstWord) : (s.driveRst w).inflight = s.inflight := (rfl)
@[simp] theorem State.driveRst_rst (s : State) (w : RstWord) : (s.driveRst w).rst = rstLevel s.cfg w := (rfl)
@[simp] theorem State.driveRst_dc (s : State) (w : RstWord) : (s.driveRst w).dc = s.dc := (rfl)
@[simp] theorem State.driveRst_cs (s : State) (w : RstWord) : (s.driveRst w).cs = s.cs := (rfl)
@[simp] theorem State.driveRst_cfg (s : State) (w : RstWord) : (s.driveRst w).cfg = s.cfg := (rfl)
@[simp] theorem State.driveRst_trace (s : State) (w : RstWord) : (s.driveRst w).trace = s.trace ++ [.rst w] := (rfl)
@[simp] theorem State.driveRst_fbw (s : State) (w : RstWord) : (s.driveRst w).fbw = s.fbw := (rfl)
@[simp] theorem State.driveRst_errlog (s : State) (w : RstWord) : (s.driveRst w).errlog = s.errlog := (rfl)
@[simp] theorem State.driveRst_faulted (s : State) (w : RstWord) : (s.driveRst w).faulted = s.faulted := (rfl)
@[simp] theorem State.driveRst_requests (s : State) (w : RstWord) : (s.driveRst w).requests = s.requests := (rfl)
@[simp] theorem State.driveRst_responses (s : State) (w : RstWord) : (s.driveRst w).responses = s.responses := (rfl)
@[simp] theorem State.driveRst_busySamples (s : State) (w : RstWord) : (s.driveRst w).busySamples = s.busySamples := (rfl)
@[simp] theorem State.driveRst_allocDraws (s : State) (w : RstWord) : (s.driveRst w).allocDraws = s.allocDraws := (rfl)
@[simp] theorem State.driveRst_fbGen (s : State) (w : RstWord) : (s.driveRst w).fbGen = s.fbGen := (rfl)
@[simp] theorem State.driveRst_fbDrawn (s : State) (w : RstWord) : (s.driveRst w).fbDrawn = s.fbDrawn := (rfl)
@[simp] theorem State.driveRst_fbByte (s : State) (w : RstWord) : (s.driveRst w).fbByte = s.fbByte := (rfl)

/-! ### `send` -/

@[simp] theorem State.send_dstate (s : State) (k : TransferKind) (b : Byte) : (s.send k b).dstate = s.dstate := (rfl)
@[simp] theorem State.send_fbOwned (s : State) (k : TransferKind) (b : Byte) : (s.send k b).fbOwned = s.fbOwned := (rfl)
@[simp] theorem State.send_res (s : State) (k : TransferKind) (b : Byte) : (s.send k b).res = s.res := (rfl)
@[simp] theorem State.send_resValid (s : State) (k : TransferKind) (b : Byte) : (s.send k b).resValid = s.resValid := (rfl)
@[simp] theorem State.send_err (s : State) (k : TransferKind) (b : Byte) : (s.send k b).err = s.err := (rfl)
@[simp] theorem State.send_fb (s : State) (k : TransferKind) (b : Byte) : (s.send k b).fb = s.fb := (rfl)
@[simp] theorem State.send_inflight (s : State) (k : TransferKind) (b : Byte) : (s.send k b).inflight = s.inflight := (rfl)
@[simp] theorem State.send_rst (s : State) (k : TransferKind) (b : Byte) : (s.send k b).rst = s.rst := (rfl)
@[simp] theorem State.send_dc (s : State) (k : TransferKind) (b : Byte) : (s.send k b).dc = k.dc := (rfl)
@[simp] theorem State.send_cs (s : State) (k : TransferKind) (b : Byte) : (s.send k b).cs = s.cfg.csActiveLevel.not := (rfl)
@[simp] theorem State.send_cfg (s : State) (k : TransferKind) (b : Byte) : (s.send k b).cfg = s.cfg := (rfl)
@[simp] theorem State.send_trace (s : State) (k : TransferKind) (b : Byte) : (s.send k b).trace = s.trace ++ [k.event b] := (rfl)
@[simp] theorem State.send_fbw (s : State) (k : TransferKind) (b : Byte) : (s.send k b).fbw = s.fbw := (rfl)
@[simp] theorem State.send_errlog (s : State) (k : TransferKind) (b : Byte) : (s.send k b).errlog = s.errlog := (rfl)
@[simp] theorem State.send_faulted (s : State) (k : TransferKind) (b : Byte) : (s.send k b).faulted = s.faulted := (rfl)
@[simp] theorem State.send_requests (s : State) (k : TransferKind) (b : Byte) : (s.send k b).requests = s.requests := (rfl)
@[simp] theorem State.send_responses (s : State) (k : TransferKind) (b : Byte) : (s.send k b).responses = s.responses := (rfl)
@[simp] theorem State.send_busySamples (s : State) (k : TransferKind) (b : Byte) : (s.send k b).busySamples = s.busySamples := (rfl)
@[simp] theorem State.send_allocDraws (s : State) (k : TransferKind) (b : Byte) : (s.send k b).allocDraws = s.allocDraws := (rfl)
@[simp] theorem State.send_fbGen (s : State) (k : TransferKind) (b : Byte) : (s.send k b).fbGen = s.fbGen := (rfl)
@[simp] theorem State.send_fbDrawn (s : State) (k : TransferKind) (b : Byte) : (s.send k b).fbDrawn = s.fbDrawn := (rfl)
@[simp] theorem State.send_fbByte (s : State) (k : TransferKind) (b : Byte) : (s.send k b).fbByte = s.fbByte := (rfl)

/-! ### `holdAt` -/

@[simp] theorem State.holdAt_dstate (s : State) (p : HoldPoint) (n : Nat) (o : State) : (s.holdAt p n o).dstate = s.dstate := (rfl)
@[simp] theorem State.holdAt_fbOwned (s : State) (p : HoldPoint) (n : Nat) (o : State) : (s.holdAt p n o).fbOwned = s.fbOwned := (rfl)
@[simp] theorem State.holdAt_res (s : State) (p : HoldPoint) (n : Nat) (o : State) : (s.holdAt p n o).res = s.res := (rfl)
@[simp] theorem State.holdAt_resValid (s : State) (p : HoldPoint) (n : Nat) (o : State) : (s.holdAt p n o).resValid = s.resValid := (rfl)
@[simp] theorem State.holdAt_err (s : State) (p : HoldPoint) (n : Nat) (o : State) : (s.holdAt p n o).err = s.err := (rfl)
@[simp] theorem State.holdAt_fb (s : State) (p : HoldPoint) (n : Nat) (o : State) : (s.holdAt p n o).fb = s.fb := (rfl)
@[simp] theorem State.holdAt_inflight (s : State) (p : HoldPoint) (n : Nat) (o : State) : (s.holdAt p n o).inflight = some ⟨p, n + (s.trace.length - o.trace.length), 0⟩ := (rfl)
@[simp] theorem State.holdAt_rst (s : State) (p : HoldPoint) (n : Nat) (o : State) : (s.holdAt p n o).rst = s.rst := (rfl)
@[simp] theorem State.holdAt_dc (s : State) (p : HoldPoint) (n : Nat) (o : State) : (s.holdAt p n o).dc = s.dc := (rfl)
@[simp] theorem State.holdAt_cs (s : State) (p : HoldPoint) (n : Nat) (o : State) : (s.holdAt p n o).cs = s.cs := (rfl)
@[simp] theorem State.holdAt_cfg (s : State) (p : HoldPoint) (n : Nat) (o : State) : (s.holdAt p n o).cfg = s.cfg := (rfl)
@[simp] theorem State.holdAt_trace (s : State) (p : HoldPoint) (n : Nat) (o : State) : (s.holdAt p n o).trace = s.trace := (rfl)
@[simp] theorem State.holdAt_fbw (s : State) (p : HoldPoint) (n : Nat) (o : State) : (s.holdAt p n o).fbw = s.fbw := (rfl)
@[simp] theorem State.holdAt_errlog (s : State) (p : HoldPoint) (n : Nat) (o : State) : (s.holdAt p n o).errlog = s.errlog := (rfl)
@[simp] theorem State.holdAt_faulted (s : State) (p : HoldPoint) (n : Nat) (o : State) : (s.holdAt p n o).faulted = s.faulted := (rfl)
@[simp] theorem State.holdAt_requests (s : State) (p : HoldPoint) (n : Nat) (o : State) : (s.holdAt p n o).requests = s.requests := (rfl)
@[simp] theorem State.holdAt_responses (s : State) (p : HoldPoint) (n : Nat) (o : State) : (s.holdAt p n o).responses = s.responses := (rfl)
@[simp] theorem State.holdAt_busySamples (s : State) (p : HoldPoint) (n : Nat) (o : State) : (s.holdAt p n o).busySamples = s.busySamples := (rfl)
@[simp] theorem State.holdAt_allocDraws (s : State) (p : HoldPoint) (n : Nat) (o : State) : (s.holdAt p n o).allocDraws = s.allocDraws := (rfl)
@[simp] theorem State.holdAt_fbGen (s : State) (p : HoldPoint) (n : Nat) (o : State) : (s.holdAt p n o).fbGen = s.fbGen := (rfl)
@[simp] theorem State.holdAt_fbDrawn (s : State) (p : HoldPoint) (n : Nat) (o : State) : (s.holdAt p n o).fbDrawn = s.fbDrawn := (rfl)
@[simp] theorem State.holdAt_fbByte (s : State) (p : HoldPoint) (n : Nat) (o : State) : (s.holdAt p n o).fbByte = s.fbByte := (rfl)

/-! ### `timeout` -/

@[simp] theorem State.timeout_dstate (s : State) (h : Inflight) : (s.timeout h).dstate = .uninitialized := (rfl)
@[simp] theorem State.timeout_fbOwned (s : State) (h : Inflight) : (s.timeout h).fbOwned = if timeoutReleases h.point.instr.operation then false else s.fbOwned := (rfl)
@[simp] theorem State.timeout_res (s : State) (h : Inflight) : (s.timeout h).res = s.res := (rfl)
@[simp] theorem State.timeout_resValid (s : State) (h : Inflight) : (s.timeout h).resValid = s.resValid := (rfl)
@[simp] theorem State.timeout_err (s : State) (h : Inflight) : (s.timeout h).err = .deviceTimeout := (rfl)
@[simp] theorem State.timeout_fb (s : State) (h : Inflight) : (s.timeout h).fb = s.fb := (rfl)
@[simp] theorem State.timeout_inflight (s : State) (h : Inflight) : (s.timeout h).inflight = none := (rfl)
@[simp] theorem State.timeout_rst (s : State) (h : Inflight) : (s.timeout h).rst = s.rst := (rfl)
@[simp] theorem State.timeout_dc (s : State) (h : Inflight) : (s.timeout h).dc = s.dc := (rfl)
@[simp] theorem State.timeout_cs (s : State) (h : Inflight) : (s.timeout h).cs = s.cs := (rfl)
@[simp] theorem State.timeout_cfg (s : State) (h : Inflight) : (s.timeout h).cfg = s.cfg := (rfl)
@[simp] theorem State.timeout_trace (s : State) (h : Inflight) : (s.timeout h).trace = s.trace := (rfl)
@[simp] theorem State.timeout_fbw (s : State) (h : Inflight) : (s.timeout h).fbw = s.fbw := (rfl)
@[simp] theorem State.timeout_errlog (s : State) (h : Inflight) : (s.timeout h).errlog = s.errlog ++ [⟨encode h.point.instr, .deviceTimeout, .wait h.point.waitNumber⟩] := (rfl)
@[simp] theorem State.timeout_faulted (s : State) (h : Inflight) : (s.timeout h).faulted = faultedAfter s.faulted .deviceTimeout := (rfl)
@[simp] theorem State.timeout_requests (s : State) (h : Inflight) : (s.timeout h).requests = s.requests := (rfl)
@[simp] theorem State.timeout_responses (s : State) (h : Inflight) : (s.timeout h).responses = s.responses ++ [responseOf .deviceTimeout none] := (rfl)
@[simp] theorem State.timeout_busySamples (s : State) (h : Inflight) : (s.timeout h).busySamples = s.busySamples := (rfl)
@[simp] theorem State.timeout_allocDraws (s : State) (h : Inflight) : (s.timeout h).allocDraws = s.allocDraws := (rfl)
@[simp] theorem State.timeout_fbGen (s : State) (h : Inflight) : (s.timeout h).fbGen = s.fbGen := (rfl)
@[simp] theorem State.timeout_fbDrawn (s : State) (h : Inflight) : (s.timeout h).fbDrawn = s.fbDrawn := (rfl)
@[simp] theorem State.timeout_fbByte (s : State) (h : Inflight) : (s.timeout h).fbByte = s.fbByte := (rfl)

/-! ### `accept` -/

@[simp] theorem State.accept_dstate (s : State) : s.accept.dstate = s.dstate := (rfl)
@[simp] theorem State.accept_fbOwned (s : State) : s.accept.fbOwned = s.fbOwned := (rfl)
@[simp] theorem State.accept_res (s : State) : s.accept.res = s.res := (rfl)
@[simp] theorem State.accept_resValid (s : State) : s.accept.resValid = s.resValid := (rfl)
@[simp] theorem State.accept_err (s : State) : s.accept.err = s.err := (rfl)
@[simp] theorem State.accept_fb (s : State) : s.accept.fb = s.fb := (rfl)
@[simp] theorem State.accept_inflight (s : State) : s.accept.inflight = s.inflight := (rfl)
@[simp] theorem State.accept_rst (s : State) : s.accept.rst = s.rst := (rfl)
@[simp] theorem State.accept_dc (s : State) : s.accept.dc = s.dc := (rfl)
@[simp] theorem State.accept_cs (s : State) : s.accept.cs = s.cs := (rfl)
@[simp] theorem State.accept_cfg (s : State) : s.accept.cfg = s.cfg := (rfl)
@[simp] theorem State.accept_trace (s : State) : s.accept.trace = s.trace := (rfl)
@[simp] theorem State.accept_fbw (s : State) : s.accept.fbw = s.fbw := (rfl)
@[simp] theorem State.accept_errlog (s : State) : s.accept.errlog = s.errlog := (rfl)
@[simp] theorem State.accept_faulted (s : State) : s.accept.faulted = s.faulted := (rfl)
@[simp] theorem State.accept_requests (s : State) : s.accept.requests = s.requests.tail := (rfl)
@[simp] theorem State.accept_responses (s : State) : s.accept.responses = s.responses := (rfl)
@[simp] theorem State.accept_busySamples (s : State) : s.accept.busySamples = s.busySamples := (rfl)
@[simp] theorem State.accept_allocDraws (s : State) : s.accept.allocDraws = s.allocDraws := (rfl)
@[simp] theorem State.accept_fbGen (s : State) : s.accept.fbGen = s.fbGen := (rfl)
@[simp] theorem State.accept_fbDrawn (s : State) : s.accept.fbDrawn = s.fbDrawn := (rfl)
@[simp] theorem State.accept_fbByte (s : State) : s.accept.fbByte = s.fbByte := (rfl)

/-! ### `present` -/

@[simp] theorem State.present_dstate (s : State) (q : RequestWord) : (s.present q).dstate = s.dstate := (rfl)
@[simp] theorem State.present_fbOwned (s : State) (q : RequestWord) : (s.present q).fbOwned = s.fbOwned := (rfl)
@[simp] theorem State.present_res (s : State) (q : RequestWord) : (s.present q).res = s.res := (rfl)
@[simp] theorem State.present_resValid (s : State) (q : RequestWord) : (s.present q).resValid = s.resValid := (rfl)
@[simp] theorem State.present_err (s : State) (q : RequestWord) : (s.present q).err = s.err := (rfl)
@[simp] theorem State.present_fb (s : State) (q : RequestWord) : (s.present q).fb = s.fb := (rfl)
@[simp] theorem State.present_inflight (s : State) (q : RequestWord) : (s.present q).inflight = none := (rfl)
@[simp] theorem State.present_rst (s : State) (q : RequestWord) : (s.present q).rst = s.rst := (rfl)
@[simp] theorem State.present_dc (s : State) (q : RequestWord) : (s.present q).dc = s.dc := (rfl)
@[simp] theorem State.present_cs (s : State) (q : RequestWord) : (s.present q).cs = s.cs := (rfl)
@[simp] theorem State.present_cfg (s : State) (q : RequestWord) : (s.present q).cfg = s.cfg := (rfl)
@[simp] theorem State.present_trace (s : State) (q : RequestWord) : (s.present q).trace = s.trace := (rfl)
@[simp] theorem State.present_fbw (s : State) (q : RequestWord) : (s.present q).fbw = s.fbw := (rfl)
@[simp] theorem State.present_errlog (s : State) (q : RequestWord) : (s.present q).errlog = s.errlog := (rfl)
@[simp] theorem State.present_faulted (s : State) (q : RequestWord) : (s.present q).faulted = s.faulted := (rfl)
@[simp] theorem State.present_requests (s : State) (q : RequestWord) : (s.present q).requests = q :: s.requests := (rfl)
@[simp] theorem State.present_responses (s : State) (q : RequestWord) : (s.present q).responses = s.responses := (rfl)
@[simp] theorem State.present_busySamples (s : State) (q : RequestWord) : (s.present q).busySamples = s.busySamples := (rfl)
@[simp] theorem State.present_allocDraws (s : State) (q : RequestWord) : (s.present q).allocDraws = s.allocDraws := (rfl)
@[simp] theorem State.present_fbGen (s : State) (q : RequestWord) : (s.present q).fbGen = s.fbGen := (rfl)
@[simp] theorem State.present_fbDrawn (s : State) (q : RequestWord) : (s.present q).fbDrawn = s.fbDrawn := (rfl)
@[simp] theorem State.present_fbByte (s : State) (q : RequestWord) : (s.present q).fbByte = s.fbByte := (rfl)

/-! ### `sendData`, `sendEntry`, `sendEntries`: only `DC`, `CS` and `TRACE` move -/

theorem State.sendData_eq (s : State) (bs : List Byte) :
    s.sendData bs = { s with
      dc := if bs = [] then s.dc else .high
      cs := if bs = [] then s.cs else s.cfg.csActiveLevel.not
      trace := s.trace ++ bs.map .data } := by
  induction bs generalizing s with
  | nil => simp [State.sendData]
  | cons b bs ih => simp [State.sendData, ih, State.send, State.emit, TransferKind.dc, TransferKind.event]

theorem State.sendEntry_eq (s : State) (e : Entry) :
    s.sendEntry e = { s with
      dc := if e.data = [] then .low else .high
      cs := s.cfg.csActiveLevel.not
      trace := s.trace ++ entryEvents e } := by
  simp [State.sendEntry, State.sendData_eq, State.send, State.emit, TransferKind.dc, TransferKind.event, entryEvents]

/-- The mode line after a sequence of entries, from its level before. -/
def dcAfter (dc : Level) : List Entry → Level
  | [] => dc
  | e :: es => dcAfter (if e.data = [] then .low else .high) es

theorem State.sendEntries_eq (s : State) (es : List Entry) :
    s.sendEntries es = { s with
      dc := dcAfter s.dc es
      cs := if es = [] then s.cs else s.cfg.csActiveLevel.not
      trace := s.trace ++ es.flatMap entryEvents } := by
  induction es generalizing s with
  | nil => simp [State.sendEntries, dcAfter]
  | cons e es ih => simp [State.sendEntries, ih, State.sendEntry_eq, dcAfter]

@[simp] theorem State.sendData_dstate (s : State) (bs : List Byte) : (s.sendData bs).dstate = s.dstate := by
  rw [State.sendData_eq]
@[simp] theorem State.sendData_fbOwned (s : State) (bs : List Byte) : (s.sendData bs).fbOwned = s.fbOwned := by
  rw [State.sendData_eq]
@[simp] theorem State.sendData_res (s : State) (bs : List Byte) : (s.sendData bs).res = s.res := by
  rw [State.sendData_eq]
@[simp] theorem State.sendData_resValid (s : State) (bs : List Byte) : (s.sendData bs).resValid = s.resValid := by
  rw [State.sendData_eq]
@[simp] theorem State.sendData_err (s : State) (bs : List Byte) : (s.sendData bs).err = s.err := by
  rw [State.sendData_eq]
@[simp] theorem State.sendData_fb (s : State) (bs : List Byte) : (s.sendData bs).fb = s.fb := by
  rw [State.sendData_eq]
@[simp] theorem State.sendData_inflight (s : State) (bs : List Byte) : (s.sendData bs).inflight = s.inflight := by
  rw [State.sendData_eq]
@[simp] theorem State.sendData_rst (s : State) (bs : List Byte) : (s.sendData bs).rst = s.rst := by
  rw [State.sendData_eq]
@[simp] theorem State.sendData_dc (s : State) (bs : List Byte) : (s.sendData bs).dc = if bs = [] then s.dc else .high := by
  rw [State.sendData_eq]
@[simp] theorem State.sendData_cs (s : State) (bs : List Byte) : (s.sendData bs).cs = if bs = [] then s.cs else s.cfg.csActiveLevel.not := by
  rw [State.sendData_eq]
@[simp] theorem State.sendData_cfg (s : State) (bs : List Byte) : (s.sendData bs).cfg = s.cfg := by
  rw [State.sendData_eq]
@[simp] theorem State.sendData_trace (s : State) (bs : List Byte) : (s.sendData bs).trace = s.trace ++ bs.map .data := by
  rw [State.sendData_eq]
@[simp] theorem State.sendData_fbw (s : State) (bs : List Byte) : (s.sendData bs).fbw = s.fbw := by
  rw [State.sendData_eq]
@[simp] theorem State.sendData_errlog (s : State) (bs : List Byte) : (s.sendData bs).errlog = s.errlog := by
  rw [State.sendData_eq]
@[simp] theorem State.sendData_faulted (s : State) (bs : List Byte) : (s.sendData bs).faulted = s.faulted := by
  rw [State.sendData_eq]
@[simp] theorem State.sendData_requests (s : State) (bs : List Byte) : (s.sendData bs).requests = s.requests := by
  rw [State.sendData_eq]
@[simp] theorem State.sendData_responses (s : State) (bs : List Byte) : (s.sendData bs).responses = s.responses := by
  rw [State.sendData_eq]
@[simp] theorem State.sendData_busySamples (s : State) (bs : List Byte) : (s.sendData bs).busySamples = s.busySamples := by
  rw [State.sendData_eq]
@[simp] theorem State.sendData_allocDraws (s : State) (bs : List Byte) : (s.sendData bs).allocDraws = s.allocDraws := by
  rw [State.sendData_eq]
@[simp] theorem State.sendData_fbGen (s : State) (bs : List Byte) : (s.sendData bs).fbGen = s.fbGen := by
  rw [State.sendData_eq]
@[simp] theorem State.sendData_fbDrawn (s : State) (bs : List Byte) : (s.sendData bs).fbDrawn = s.fbDrawn := by
  rw [State.sendData_eq]; rfl
@[simp] theorem State.sendData_fbByte (s : State) (bs : List Byte) : (s.sendData bs).fbByte = s.fbByte := by
  rw [State.sendData_eq]; rfl
@[simp] theorem State.sendEntry_dstate (s : State) (e : Entry) : (s.sendEntry e).dstate = s.dstate := by
  rw [State.sendEntry_eq]
@[simp] theorem State.sendEntry_fbOwned (s : State) (e : Entry) : (s.sendEntry e).fbOwned = s.fbOwned := by
  rw [State.sendEntry_eq]
@[simp] theorem State.sendEntry_res (s : State) (e : Entry) : (s.sendEntry e).res = s.res := by
  rw [State.sendEntry_eq]
@[simp] theorem State.sendEntry_resValid (s : State) (e : Entry) : (s.sendEntry e).resValid = s.resValid := by
  rw [State.sendEntry_eq]
@[simp] theorem State.sendEntry_err (s : State) (e : Entry) : (s.sendEntry e).err = s.err := by
  rw [State.sendEntry_eq]
@[simp] theorem State.sendEntry_fb (s : State) (e : Entry) : (s.sendEntry e).fb = s.fb := by
  rw [State.sendEntry_eq]
@[simp] theorem State.sendEntry_inflight (s : State) (e : Entry) : (s.sendEntry e).inflight = s.inflight := by
  rw [State.sendEntry_eq]
@[simp] theorem State.sendEntry_rst (s : State) (e : Entry) : (s.sendEntry e).rst = s.rst := by
  rw [State.sendEntry_eq]
@[simp] theorem State.sendEntry_dc (s : State) (e : Entry) : (s.sendEntry e).dc = if e.data = [] then .low else .high := by
  rw [State.sendEntry_eq]
@[simp] theorem State.sendEntry_cs (s : State) (e : Entry) : (s.sendEntry e).cs = s.cfg.csActiveLevel.not := by
  rw [State.sendEntry_eq]
@[simp] theorem State.sendEntry_cfg (s : State) (e : Entry) : (s.sendEntry e).cfg = s.cfg := by
  rw [State.sendEntry_eq]
@[simp] theorem State.sendEntry_trace (s : State) (e : Entry) : (s.sendEntry e).trace = s.trace ++ entryEvents e := by
  rw [State.sendEntry_eq]
@[simp] theorem State.sendEntry_fbw (s : State) (e : Entry) : (s.sendEntry e).fbw = s.fbw := by
  rw [State.sendEntry_eq]
@[simp] theorem State.sendEntry_errlog (s : State) (e : Entry) : (s.sendEntry e).errlog = s.errlog := by
  rw [State.sendEntry_eq]
@[simp] theorem State.sendEntry_faulted (s : State) (e : Entry) : (s.sendEntry e).faulted = s.faulted := by
  rw [State.sendEntry_eq]
@[simp] theorem State.sendEntry_requests (s : State) (e : Entry) : (s.sendEntry e).requests = s.requests := by
  rw [State.sendEntry_eq]
@[simp] theorem State.sendEntry_responses (s : State) (e : Entry) : (s.sendEntry e).responses = s.responses := by
  rw [State.sendEntry_eq]
@[simp] theorem State.sendEntry_busySamples (s : State) (e : Entry) : (s.sendEntry e).busySamples = s.busySamples := by
  rw [State.sendEntry_eq]
@[simp] theorem State.sendEntry_allocDraws (s : State) (e : Entry) : (s.sendEntry e).allocDraws = s.allocDraws := by
  rw [State.sendEntry_eq]
@[simp] theorem State.sendEntry_fbGen (s : State) (e : Entry) : (s.sendEntry e).fbGen = s.fbGen := by
  rw [State.sendEntry_eq]
@[simp] theorem State.sendEntry_fbDrawn (s : State) (e : Entry) : (s.sendEntry e).fbDrawn = s.fbDrawn := by
  rw [State.sendEntry_eq]; rfl
@[simp] theorem State.sendEntry_fbByte (s : State) (e : Entry) : (s.sendEntry e).fbByte = s.fbByte := by
  rw [State.sendEntry_eq]; rfl
@[simp] theorem State.sendEntries_dstate (s : State) (es : List Entry) : (s.sendEntries es).dstate = s.dstate := by
  rw [State.sendEntries_eq]
@[simp] theorem State.sendEntries_fbOwned (s : State) (es : List Entry) : (s.sendEntries es).fbOwned = s.fbOwned := by
  rw [State.sendEntries_eq]
@[simp] theorem State.sendEntries_res (s : State) (es : List Entry) : (s.sendEntries es).res = s.res := by
  rw [State.sendEntries_eq]
@[simp] theorem State.sendEntries_resValid (s : State) (es : List Entry) : (s.sendEntries es).resValid = s.resValid := by
  rw [State.sendEntries_eq]
@[simp] theorem State.sendEntries_err (s : State) (es : List Entry) : (s.sendEntries es).err = s.err := by
  rw [State.sendEntries_eq]
@[simp] theorem State.sendEntries_fb (s : State) (es : List Entry) : (s.sendEntries es).fb = s.fb := by
  rw [State.sendEntries_eq]
@[simp] theorem State.sendEntries_inflight (s : State) (es : List Entry) : (s.sendEntries es).inflight = s.inflight := by
  rw [State.sendEntries_eq]
@[simp] theorem State.sendEntries_rst (s : State) (es : List Entry) : (s.sendEntries es).rst = s.rst := by
  rw [State.sendEntries_eq]
@[simp] theorem State.sendEntries_dc (s : State) (es : List Entry) : (s.sendEntries es).dc = dcAfter s.dc es := by
  rw [State.sendEntries_eq]
@[simp] theorem State.sendEntries_cs (s : State) (es : List Entry) : (s.sendEntries es).cs = if es = [] then s.cs else s.cfg.csActiveLevel.not := by
  rw [State.sendEntries_eq]
@[simp] theorem State.sendEntries_cfg (s : State) (es : List Entry) : (s.sendEntries es).cfg = s.cfg := by
  rw [State.sendEntries_eq]
@[simp] theorem State.sendEntries_trace (s : State) (es : List Entry) : (s.sendEntries es).trace = s.trace ++ es.flatMap entryEvents := by
  rw [State.sendEntries_eq]
@[simp] theorem State.sendEntries_fbw (s : State) (es : List Entry) : (s.sendEntries es).fbw = s.fbw := by
  rw [State.sendEntries_eq]
@[simp] theorem State.sendEntries_errlog (s : State) (es : List Entry) : (s.sendEntries es).errlog = s.errlog := by
  rw [State.sendEntries_eq]
@[simp] theorem State.sendEntries_faulted (s : State) (es : List Entry) : (s.sendEntries es).faulted = s.faulted := by
  rw [State.sendEntries_eq]
@[simp] theorem State.sendEntries_requests (s : State) (es : List Entry) : (s.sendEntries es).requests = s.requests := by
  rw [State.sendEntries_eq]
@[simp] theorem State.sendEntries_responses (s : State) (es : List Entry) : (s.sendEntries es).responses = s.responses := by
  rw [State.sendEntries_eq]
@[simp] theorem State.sendEntries_busySamples (s : State) (es : List Entry) : (s.sendEntries es).busySamples = s.busySamples := by
  rw [State.sendEntries_eq]
@[simp] theorem State.sendEntries_allocDraws (s : State) (es : List Entry) : (s.sendEntries es).allocDraws = s.allocDraws := by
  rw [State.sendEntries_eq]
@[simp] theorem State.sendEntries_fbGen (s : State) (es : List Entry) : (s.sendEntries es).fbGen = s.fbGen := by
  rw [State.sendEntries_eq]
@[simp] theorem State.sendEntries_fbDrawn (s : State) (es : List Entry) : (s.sendEntries es).fbDrawn = s.fbDrawn := by
  rw [State.sendEntries_eq]; rfl
@[simp] theorem State.sendEntries_fbByte (s : State) (es : List Entry) : (s.sendEntries es).fbByte = s.fbByte := by
  rw [State.sendEntries_eq]; rfl

/-! ### `transmitHead`, `transmitTail`, `resetPulse` -/

theorem State.transmitHead_eq (s : State) : s.transmitHead = s.sendEntry s.cfg.startTx := rfl

theorem fbAddresses_length : fbAddresses.length = NFB := by
  unfold fbAddresses; exact List.length_range

@[simp] theorem mem_fbAddresses (a : Nat) : a ∈ fbAddresses ↔ a < NFB := by
  unfold fbAddresses; exact List.mem_range

theorem fbAddresses_pairwise : fbAddresses.Pairwise (· < ·) := by
  unfold fbAddresses; exact List.pairwise_lt_range

theorem State.fbBytes_length (s : State) : s.fbBytes.length = NFB := by
  rw [State.fbBytes, List.length_map, fbAddresses_length]

theorem State.fbBytes_ne_nil (s : State) : s.fbBytes ≠ [] := by
  intro h
  have hl := s.fbBytes_length
  rw [h] at hl
  exact absurd hl (by decide)

@[simp] theorem State.fbBytes_sendEntry (s : State) (e : Entry) : (s.sendEntry e).fbBytes = s.fbBytes := by
  simp only [State.fbBytes, State.sendEntry_fbByte]

theorem State.transmitTail_eq (s : State) :
    s.transmitTail = { s with
      dc := .high
      cs := s.cfg.csActiveLevel.not
      trace := s.trace ++ ramEvents s.cfg s.fbBytes
      fbOwned := false } := by
  simp [State.transmitTail, State.sendData_eq, State.sendEntry_eq, s.fbBytes_ne_nil, ramEvents]

theorem State.resetPulse_eq (s : State) :
    s.resetPulse = { s with rst := s.cfg.rstAssertLevel, trace := s.trace ++ resetEvents } := by
  simp [State.resetPulse, State.driveRst, State.delay, State.emit, rstLevel, resetEvents, rstFirstMs, rstPulseMs,
    rstLastMs]

@[simp] theorem State.transmitHead_dstate (s : State) : s.transmitHead.dstate = s.dstate := by
  simp [State.transmitHead_eq]
@[simp] theorem State.transmitHead_fbOwned (s : State) : s.transmitHead.fbOwned = s.fbOwned := by
  simp [State.transmitHead_eq]
@[simp] theorem State.transmitHead_res (s : State) : s.transmitHead.res = s.res := by
  simp [State.transmitHead_eq]
@[simp] theorem State.transmitHead_resValid (s : State) : s.transmitHead.resValid = s.resValid := by
  simp [State.transmitHead_eq]
@[simp] theorem State.transmitHead_err (s : State) : s.transmitHead.err = s.err := by
  simp [State.transmitHead_eq]
@[simp] theorem State.transmitHead_fb (s : State) : s.transmitHead.fb = s.fb := by
  simp [State.transmitHead_eq]
@[simp] theorem State.transmitHead_inflight (s : State) : s.transmitHead.inflight = s.inflight := by
  simp [State.transmitHead_eq]
@[simp] theorem State.transmitHead_rst (s : State) : s.transmitHead.rst = s.rst := by
  simp [State.transmitHead_eq]
@[simp] theorem State.transmitHead_dc (s : State) : s.transmitHead.dc = if s.cfg.startTx.data = [] then .low else .high := by
  simp [State.transmitHead_eq]
@[simp] theorem State.transmitHead_cs (s : State) : s.transmitHead.cs = s.cfg.csActiveLevel.not := by
  simp [State.transmitHead_eq]
@[simp] theorem State.transmitHead_cfg (s : State) : s.transmitHead.cfg = s.cfg := by
  simp [State.transmitHead_eq]
@[simp] theorem State.transmitHead_trace (s : State) : s.transmitHead.trace = s.trace ++ entryEvents s.cfg.startTx := by
  simp [State.transmitHead_eq]
@[simp] theorem State.transmitHead_fbw (s : State) : s.transmitHead.fbw = s.fbw := by
  simp [State.transmitHead_eq]
@[simp] theorem State.transmitHead_errlog (s : State) : s.transmitHead.errlog = s.errlog := by
  simp [State.transmitHead_eq]
@[simp] theorem State.transmitHead_faulted (s : State) : s.transmitHead.faulted = s.faulted := by
  simp [State.transmitHead_eq]
@[simp] theorem State.transmitHead_requests (s : State) : s.transmitHead.requests = s.requests := by
  simp [State.transmitHead_eq]
@[simp] theorem State.transmitHead_responses (s : State) : s.transmitHead.responses = s.responses := by
  simp [State.transmitHead_eq]
@[simp] theorem State.transmitHead_busySamples (s : State) : s.transmitHead.busySamples = s.busySamples := by
  simp [State.transmitHead_eq]
@[simp] theorem State.transmitHead_allocDraws (s : State) : s.transmitHead.allocDraws = s.allocDraws := by
  simp [State.transmitHead_eq]
@[simp] theorem State.transmitHead_fbGen (s : State) : s.transmitHead.fbGen = s.fbGen := by
  simp [State.transmitHead_eq]
@[simp] theorem State.transmitHead_fbDrawn (s : State) : s.transmitHead.fbDrawn = s.fbDrawn := by
  simp [State.transmitHead_eq]
@[simp] theorem State.transmitHead_fbByte (s : State) : s.transmitHead.fbByte = s.fbByte := by
  simp [State.transmitHead_eq]
@[simp] theorem State.transmitTail_dstate (s : State) : s.transmitTail.dstate = s.dstate := by
  rw [State.transmitTail_eq]
@[simp] theorem State.transmitTail_fbOwned (s : State) : s.transmitTail.fbOwned = false := by
  rw [State.transmitTail_eq]
@[simp] theorem State.transmitTail_res (s : State) : s.transmitTail.res = s.res := by
  rw [State.transmitTail_eq]
@[simp] theorem State.transmitTail_resValid (s : State) : s.transmitTail.resValid = s.resValid := by
  rw [State.transmitTail_eq]
@[simp] theorem State.transmitTail_err (s : State) : s.transmitTail.err = s.err := by
  rw [State.transmitTail_eq]
@[simp] theorem State.transmitTail_fb (s : State) : s.transmitTail.fb = s.fb := by
  rw [State.transmitTail_eq]
@[simp] theorem State.transmitTail_inflight (s : State) : s.transmitTail.inflight = s.inflight := by
  rw [State.transmitTail_eq]
@[simp] theorem State.transmitTail_rst (s : State) : s.transmitTail.rst = s.rst := by
  rw [State.transmitTail_eq]
@[simp] theorem State.transmitTail_dc (s : State) : s.transmitTail.dc = .high := by
  rw [State.transmitTail_eq]
@[simp] theorem State.transmitTail_cs (s : State) : s.transmitTail.cs = s.cfg.csActiveLevel.not := by
  rw [State.transmitTail_eq]
@[simp] theorem State.transmitTail_cfg (s : State) : s.transmitTail.cfg = s.cfg := by
  rw [State.transmitTail_eq]
@[simp] theorem State.transmitTail_trace (s : State) : s.transmitTail.trace = s.trace ++ ramEvents s.cfg s.fbBytes := by
  rw [State.transmitTail_eq]
@[simp] theorem State.transmitTail_fbw (s : State) : s.transmitTail.fbw = s.fbw := by
  rw [State.transmitTail_eq]
@[simp] theorem State.transmitTail_errlog (s : State) : s.transmitTail.errlog = s.errlog := by
  rw [State.transmitTail_eq]
@[simp] theorem State.transmitTail_faulted (s : State) : s.transmitTail.faulted = s.faulted := by
  rw [State.transmitTail_eq]
@[simp] theorem State.transmitTail_requests (s : State) : s.transmitTail.requests = s.requests := by
  rw [State.transmitTail_eq]
@[simp] theorem State.transmitTail_responses (s : State) : s.transmitTail.responses = s.responses := by
  rw [State.transmitTail_eq]
@[simp] theorem State.transmitTail_busySamples (s : State) : s.transmitTail.busySamples = s.busySamples := by
  rw [State.transmitTail_eq]
@[simp] theorem State.transmitTail_allocDraws (s : State) : s.transmitTail.allocDraws = s.allocDraws := by
  rw [State.transmitTail_eq]
@[simp] theorem State.transmitTail_fbGen (s : State) : s.transmitTail.fbGen = s.fbGen := by
  rw [State.transmitTail_eq]
@[simp] theorem State.transmitTail_fbDrawn (s : State) : s.transmitTail.fbDrawn = s.fbDrawn := by
  rw [State.transmitTail_eq]; rfl
@[simp] theorem State.transmitTail_fbByte (s : State) : s.transmitTail.fbByte = s.fbByte := by
  rw [State.transmitTail_eq]; rfl
@[simp] theorem State.resetPulse_dstate (s : State) : s.resetPulse.dstate = s.dstate := by
  rw [State.resetPulse_eq]
@[simp] theorem State.resetPulse_fbOwned (s : State) : s.resetPulse.fbOwned = s.fbOwned := by
  rw [State.resetPulse_eq]
@[simp] theorem State.resetPulse_res (s : State) : s.resetPulse.res = s.res := by
  rw [State.resetPulse_eq]
@[simp] theorem State.resetPulse_resValid (s : State) : s.resetPulse.resValid = s.resValid := by
  rw [State.resetPulse_eq]
@[simp] theorem State.resetPulse_err (s : State) : s.resetPulse.err = s.err := by
  rw [State.resetPulse_eq]
@[simp] theorem State.resetPulse_fb (s : State) : s.resetPulse.fb = s.fb := by
  rw [State.resetPulse_eq]
@[simp] theorem State.resetPulse_inflight (s : State) : s.resetPulse.inflight = s.inflight := by
  rw [State.resetPulse_eq]
@[simp] theorem State.resetPulse_rst (s : State) : s.resetPulse.rst = s.cfg.rstAssertLevel := by
  rw [State.resetPulse_eq]
@[simp] theorem State.resetPulse_dc (s : State) : s.resetPulse.dc = s.dc := by
  rw [State.resetPulse_eq]
@[simp] theorem State.resetPulse_cs (s : State) : s.resetPulse.cs = s.cs := by
  rw [State.resetPulse_eq]
@[simp] theorem State.resetPulse_cfg (s : State) : s.resetPulse.cfg = s.cfg := by
  rw [State.resetPulse_eq]
@[simp] theorem State.resetPulse_trace (s : State) : s.resetPulse.trace = s.trace ++ resetEvents := by
  rw [State.resetPulse_eq]
@[simp] theorem State.resetPulse_fbw (s : State) : s.resetPulse.fbw = s.fbw := by
  rw [State.resetPulse_eq]
@[simp] theorem State.resetPulse_errlog (s : State) : s.resetPulse.errlog = s.errlog := by
  rw [State.resetPulse_eq]
@[simp] theorem State.resetPulse_faulted (s : State) : s.resetPulse.faulted = s.faulted := by
  rw [State.resetPulse_eq]
@[simp] theorem State.resetPulse_requests (s : State) : s.resetPulse.requests = s.requests := by
  rw [State.resetPulse_eq]
@[simp] theorem State.resetPulse_responses (s : State) : s.resetPulse.responses = s.responses := by
  rw [State.resetPulse_eq]
@[simp] theorem State.resetPulse_busySamples (s : State) : s.resetPulse.busySamples = s.busySamples := by
  rw [State.resetPulse_eq]
@[simp] theorem State.resetPulse_allocDraws (s : State) : s.resetPulse.allocDraws = s.allocDraws := by
  rw [State.resetPulse_eq]
@[simp] theorem State.resetPulse_fbGen (s : State) : s.resetPulse.fbGen = s.fbGen := by
  rw [State.resetPulse_eq]
@[simp] theorem State.resetPulse_fbDrawn (s : State) : s.resetPulse.fbDrawn = s.fbDrawn := by
  rw [State.resetPulse_eq]; rfl
@[simp] theorem State.resetPulse_fbByte (s : State) : s.resetPulse.fbByte = s.fbByte := by
  rw [State.resetPulse_eq]; rfl

end Sys2Proof.Machine
end

