-- ==== Sys2Proof/Laws/Memory.lean ====
section
/-! SUPPORT. The framebuffer's laws: read after write, the canonical form kept by every operation, and equal contents
are equal lists. -/

namespace Sys2Proof.Machine

variable (d : Nat → Byte)

@[simp] theorem Memory.read_nil (a : Nat) : Memory.read d [] a = d a := rfl

theorem Memory.read_cons (b : Nat) (v : Byte) (m : Memory) (a : Nat) :
    Memory.read d ((b, v) :: m) a = if a = b then v else Memory.read d m a := rfl

theorem Memory.read_erase (m : Memory) (a x : Nat) :
    Memory.read d (Memory.erase m a) x = if x = a then d x else Memory.read d m x := by
  induction m with
  | nil => simp [Memory.erase]
  | cons c m ih =>
    obtain ⟨b, v⟩ := c
    have ih' : Memory.read d (m.filter fun c => c.1 ≠ a) x = if x = a then d x else Memory.read d m x := ih
    by_cases hb : b = a
    · subst hb
      have : Memory.erase ((b, v) :: m) b = m.filter fun c => c.1 ≠ b := by simp [Memory.erase]
      rw [this, ih', Memory.read_cons]
      split <;> rfl
    · have : Memory.erase ((b, v) :: m) a = (b, v) :: m.filter fun c => c.1 ≠ a := by simp [Memory.erase, hb]
      rw [this, Memory.read_cons, Memory.read_cons, ih']
      by_cases hx : x = b
      · subst hx; simp [hb]
      · simp [hx]

theorem Memory.read_insert (m : Memory) (a x : Nat) (v : Byte) (ha : ∀ c ∈ m, c.1 ≠ a) :
    Memory.read d (Memory.insert m a v) x = if x = a then v else Memory.read d m x := by
  induction m with
  | nil => simp [Memory.insert, Memory.read_cons]
  | cons c m ih =>
    obtain ⟨b, w⟩ := c
    have hb : b ≠ a := ha (b, w) (by simp)
    have ih' := ih fun c hc => ha c (by simp [hc])
    unfold Memory.insert
    split
    · simp [Memory.read_cons]
    · rw [Memory.read_cons, ih', Memory.read_cons]
      by_cases hx : x = b
      · subst hx; simp [hb]
      · simp [hx]

theorem Memory.erase_ne (m : Memory) (a : Nat) : ∀ c ∈ Memory.erase m a, c.1 ≠ a := by
  intro c hc
  have := (List.mem_filter.mp hc).2
  simpa using this

/-- What a write does to every later read: the written address gives the value, every other address is left alone. -/
theorem Memory.read_write (m : Memory) (a x : Nat) (v : Byte) :
    Memory.read d (Memory.write d m a v) x = if x = a then v else Memory.read d m x := by
  unfold Memory.write
  split
  · rename_i h
    rw [Memory.read_erase]
    by_cases hx : x = a
    · subst hx; simp [h]
    · simp [hx]
  · rw [Memory.read_insert d _ _ _ _ (Memory.erase_ne m a), Memory.read_erase]
    split <;> rfl

@[simp] theorem Memory.read_write_same (m : Memory) (a : Nat) (v : Byte) :
    Memory.read d (Memory.write d m a v) a = v := by simp [Memory.read_write]

theorem Memory.read_write_other (m : Memory) {a x : Nat} (v : Byte) (h : x ≠ a) :
    Memory.read d (Memory.write d m a v) x = Memory.read d m x := by simp [Memory.read_write, h]

theorem Memory.wf_nil : Memory.wf d [] := by simp [Memory.wf]

/-- The memory of the power-on state is in the canonical form. -/
theorem State.reset_memory_wf : Memory.wf State.reset.fbDrawn State.reset.fb := Memory.wf_nil _

theorem Memory.wf_erase {m : Memory} (h : Memory.wf d m) (a : Nat) : Memory.wf d (Memory.erase m a) :=
  ⟨h.1.filter _, fun c hc => h.2 c (List.mem_filter.mp hc).1⟩

theorem Memory.mem_insert {m : Memory} {a : Nat} {v : Byte} {c : Host.Cell} (h : c ∈ Memory.insert m a v) :
    c = (a, v) ∨ c ∈ m := by
  induction m with
  | nil => simpa [Memory.insert] using h
  | cons b m ih =>
    unfold Memory.insert at h
    split at h
    · simpa using h
    · rcases List.mem_cons.mp h with h | h
      · exact .inr (by simp [h])
      · rcases ih h with h | h
        · exact .inl h
        · exact .inr (by simp [h])

theorem Memory.pairwise_insert {m : Memory} {a : Nat} {v : Byte} (h : m.Pairwise (fun c c' => c.1 < c'.1))
    (ha : ∀ c ∈ m, c.1 ≠ a) : (Memory.insert m a v).Pairwise (fun c c' => c.1 < c'.1) := by
  induction m with
  | nil => simp [Memory.insert]
  | cons b m ih =>
    have hb := List.pairwise_cons.mp h
    unfold Memory.insert
    split
    · rename_i hlt
      refine List.pairwise_cons.mpr ⟨fun c hc => ?_, h⟩
      rcases List.mem_cons.mp hc with rfl | hc
      · exact hlt
      · exact lt_trans hlt (hb.1 c hc)
    · rename_i hlt
      have hne : b.1 ≠ a := ha b (by simp)
      refine List.pairwise_cons.mpr ⟨fun c hc => ?_, ih hb.2 fun c hc => ha c (by simp [hc])⟩
      rcases Memory.mem_insert hc with rfl | hc
      · simp only at hlt ⊢; omega
      · exact hb.1 c hc

/-- A write keeps the canonical form. -/
theorem Memory.wf_write {m : Memory} (h : Memory.wf d m) {a : Nat} (ha : a < NFB) (v : Byte) :
    Memory.wf d (Memory.write d m a v) := by
  unfold Memory.write
  split
  · exact Memory.wf_erase d h a
  · rename_i hv
    have he := Memory.wf_erase d h a
    refine ⟨Memory.pairwise_insert he.1 (Memory.erase_ne m a), fun c hc => ?_⟩
    rcases Memory.mem_insert hc with rfl | hc
    · exact ⟨ha, hv⟩
    · exact he.2 c hc

theorem Memory.read_filterMap (l : List Nat) (c : Byte) (a : Nat) :
    Memory.read d (l.filterMap fun a => if c = d a then none else some (a, c)) a = if a ∈ l then c else d a := by
  induction l with
  | nil => simp
  | cons b l ih =>
    by_cases hb : c = d b
    · rw [List.filterMap_cons_none (by simp [hb]), ih]
      by_cases hab : a = b
      · subst hab; simp [← hb]
      · simp [hab]
    · rw [List.filterMap_cons_some (b := (b, c)) (by simp [hb]), Memory.read_cons, ih]
      by_cases hab : a = b
      · simp [hab]
      · simp [hab]

/-- After a fill every byte of the framebuffer reads as the filled one. -/
theorem Memory.read_fill (c : Byte) (a : Nat) : Memory.read d (Memory.fill d c) a = if a < NFB then c else d a := by
  rw [Memory.fill, Memory.read_filterMap]
  simp

/-- A fill has the canonical form. -/
theorem Memory.wf_fill (c : Byte) : Memory.wf d (Memory.fill d c) := by
  constructor
  · rw [Memory.fill]
    refine List.Pairwise.filterMap _ ?_ fbAddresses_pairwise
    intro a a' haa b hb b' hb'
    have h1 : b.1 = a := by
      by_cases h : c = d a <;> simp [h] at hb
      simp [← hb]
    have h2 : b'.1 = a' := by
      by_cases h : c = d a' <;> simp [h] at hb'
      simp [← hb']
    omega
  · intro e he
    obtain ⟨a, ha, hb⟩ := List.mem_filterMap.mp he
    by_cases h : c = d a
    · simp [h] at hb
    · simp only [h, if_false, Option.some.injEq] at hb
      subst hb
      exact ⟨(mem_fbAddresses a).mp ha, h⟩

theorem Memory.read_of_forall_lt {m : Memory} {a : Nat} (h : ∀ c ∈ m, a < c.1) : Memory.read d m a = d a := by
  induction m with
  | nil => rfl
  | cons b m ih =>
    have hb := h b (by simp)
    rw [Memory.read_cons, if_neg (by omega)]
    exact ih fun c hc => h c (by simp [hc])

/-- Equal contents are equal lists: the canonical form is one. -/
theorem Memory.ext_of_wf {m m' : Memory} (h : Memory.wf d m) (h' : Memory.wf d m')
    (hr : ∀ a, Memory.read d m a = Memory.read d m' a) : m = m' := by
  induction m generalizing m' with
  | nil =>
    cases m' with
    | nil => rfl
    | cons b m' =>
      have := hr b.1
      rw [Memory.read_cons, if_pos rfl] at this
      exact absurd this.symm (h'.2 b (by simp)).2
  | cons b m ih =>
    cases m' with
    | nil =>
      have := hr b.1
      rw [Memory.read_cons, if_pos rfl] at this
      exact absurd this (h.2 b (by simp)).2
    | cons b' m' =>
      have hp := List.pairwise_cons.mp h.1
      have hp' := List.pairwise_cons.mp h'.1
      have key : b.1 = b'.1 := by
        rcases lt_trichotomy b.1 b'.1 with hlt | heq | hgt
        · have := hr b.1
          rw [Memory.read_cons, if_pos rfl, Memory.read_of_forall_lt d (m := b' :: m')] at this
          · exact absurd this (h.2 b (by simp)).2
          · intro c hc
            rcases List.mem_cons.mp hc with rfl | hc
            · exact hlt
            · exact lt_trans hlt (hp'.1 c hc)
        · exact heq
        · have := hr b'.1
          rw [Memory.read_cons (b := b'.1), if_pos rfl, Memory.read_of_forall_lt d (m := b :: m)] at this
          · exact absurd this.symm (h'.2 b' (by simp)).2
          · intro c hc
            rcases List.mem_cons.mp hc with rfl | hc
            · exact hgt
            · exact lt_trans hgt (hp.1 c hc)
      obtain ⟨a, v⟩ := b
      obtain ⟨a', v'⟩ := b'
      simp only at key
      subst key
      have hv : v = v' := by simpa [Memory.read_cons] using hr a
      subst hv
      have htail : m = m' := by
        refine ih ⟨hp.2, fun c hc => h.2 c (by simp [hc])⟩ ⟨hp'.2, fun c hc => h'.2 c (by simp [hc])⟩ fun x => ?_
        by_cases hx : x = a
        · subst hx
          rw [Memory.read_of_forall_lt d hp.1, Memory.read_of_forall_lt d hp'.1]
        · simpa [Memory.read_cons, hx] using hr x
      rw [htail]

/-! ### The framebuffer of a state -/

/-- What a byte of the framebuffer reads as after a write. -/
theorem State.fbByte_setFbByte (s : State) (a x : Nat) (v : Byte) :
    (s.setFbByte a v).fbByte x = if x = a then v else s.fbByte x := Memory.read_write _ _ _ _ _

/-- What a byte of the framebuffer reads as after a fill. -/
theorem State.fbByte_fillFb (s : State) (c : Byte) (a : Nat) :
    (s.fillFb c).fbByte a = if a < NFB then c else s.fbDrawn a := Memory.read_fill _ _ _

/-- Drawn contents are free bytes. -/
theorem State.fbByte_drawFb (s : State) (a : Nat) : s.drawFb.fbByte a = Config.freshByte (s.fbGen + 1) a := rfl

/-- What a byte of the framebuffer reads as after a pack. -/
theorem State.fbByte_pack (s : State) (x y : Nat) (idx : BitVec 2) (a : Nat) :
    (s.pack x y idx).fbByte a =
      if a = byteOffset x y then setPixelBits (s.fbByte a) (bitShift x) idx else s.fbByte a := by
  have h : (s.pack x y idx).fbByte a =
      (s.setFbByte (byteOffset x y) (setPixelBits (s.fbByte (byteOffset x y)) (bitShift x) idx)).fbByte a := rfl
  rw [h, State.fbByte_setFbByte]
  split
  · rename_i hx; rw [hx]
  · rfl

end Sys2Proof.Machine
end

