-- ==== Sys2Proof/Laws/Ops.lean ====
section
/-! SUPPORT. For each shared operation one lemma that says everything it can do. -/

namespace Sys2Proof.Machine

/-! ### Pixels -/

theorem onPanel_iff (x y : Nat) : onPanel x y = true ↔ x < W ∧ y < H := by simp [onPanel]

theorem byteOffset_lt {x y : Nat} (hx : x < W) (hy : y < H) : byteOffset x y < NFB := by
  simp only [byteOffset, W, H, NFB] at *; omega

theorem pixelNumber_lt {x y : Nat} (hx : x < W) (hy : y < H) : pixelNumber x y < NPIX := by
  simp only [pixelNumber, W, H, NPIX] at *; omega

theorem bitShift_cases (x : Nat) : bitShift x = 0 ∨ bitShift x = 2 ∨ bitShift x = 4 ∨ bitShift x = 6 := by
  unfold bitShift; omega

/-- Two pixels on the panel in the same byte at the same shift are the same pixel. -/
theorem pixel_eq_of_location {x y x' y' : Nat} (hx : x < W) (hx' : x' < W)
    (ho : byteOffset x y = byteOffset x' y') (hs : bitShift x = bitShift x') : x = x' ∧ y = y' := by
  simp only [byteOffset, bitShift, W] at *; omega

theorem pixelNumber_inj {x y x' y' : Nat} (hx : x < W) (hx' : x' < W)
    (h : pixelNumber x y = pixelNumber x' y') : x = x' ∧ y = y' := by
  simp only [pixelNumber, W] at *; omega

/-- Setting a pixel's bits and reading them back, at any of the four shifts. -/
theorem getPixelBits_setPixelBits_same (v : Byte) (idx : BitVec 2) (x : Nat) :
    getPixelBits (setPixelBits v (bitShift x) idx) (bitShift x) = idx := by
  rcases bitShift_cases x with h | h | h | h <;> rw [h] <;> revert v idx <;> decide

/-- Setting a pixel's bits leaves the other three pixels of the byte. -/
theorem getPixelBits_setPixelBits_other (v : Byte) (idx : BitVec 2) {x x' : Nat} (hne : bitShift x ≠ bitShift x') :
    getPixelBits (setPixelBits v (bitShift x) idx) (bitShift x') = getPixelBits v (bitShift x') := by
  rcases bitShift_cases x with h | h | h | h <;> rcases bitShift_cases x' with h' | h' | h' | h' <;>
    rw [h, h'] at hne ⊢ <;> first | (exact absurd rfl hne) | (clear h h' hne; revert v idx; decide)

/-- What a pack does to every pixel on the panel. -/
theorem State.fbPixel_pack (s : State) {x y x' y' : Nat} (idx : BitVec 2) (hx : x < W) (hx' : x' < W) :
    (s.pack x y idx).fbPixel x' y' = if x' = x ∧ y' = y then idx else s.fbPixel x' y' := by
  unfold State.fbPixel
  rw [State.fbByte_pack]
  by_cases ho : byteOffset x' y' = byteOffset x y
  · rw [if_pos ho]
    by_cases hs : bitShift x' = bitShift x
    · have h := pixel_eq_of_location hx' hx ho hs
      rw [if_pos h, hs, getPixelBits_setPixelBits_same]
    · rw [getPixelBits_setPixelBits_other _ _ (fun h => hs h.symm), if_neg]
      rintro ⟨rfl, -⟩
      exact hs rfl
  · rw [if_neg ho, if_neg]
    rintro ⟨rfl, rfl⟩
    exact ho rfl

/-- What a pack does to every bit of `FBW`. -/
theorem State.fbw_pack (s : State) (x y : Nat) (idx : BitVec 2) {p : Nat} (hp : p < NPIX) :
    (s.pack x y idx).fbw.getLsbD p = (s.fbw.getLsbD p || decide (p = pixelNumber x y)) := by
  rw [State.pack_fbw, BitVec.getLsbD_or, BitVec.getLsbD_twoPow]
  by_cases h : p = pixelNumber x y
  · subst h; simp [hp]
  · have h' : ¬ pixelNumber x y = p := fun e => h e.symm
    simp [h, h']

/-- A pack keeps the canonical form. -/
theorem State.wf_pack (s : State) {x y : Nat} (idx : BitVec 2) (h : Memory.wf s.fbDrawn s.fb) (hx : x < W) (hy : y < H) :
    Memory.wf (s.pack x y idx).fbDrawn (s.pack x y idx).fb :=
  Memory.wf_write s.fbDrawn h (byteOffset_lt hx hy) _

/-! ### Checks -/

@[simp] theorem State.guarded_none (s : State) (i : Instr) (body : State → State) : s.guarded i none body = body s := rfl

@[simp] theorem State.guarded_some (s : State) (i : Instr) (st : Status) (info : ErrInfo) (body : State → State) :
    s.guarded i (some (st, info)) body = s.raise (encode i) st info := rfl

/-- The packer's three outcomes (R120). -/
theorem packFailure_cases (s : State) (i : Instr) (x y : Coord) :
    (s.fbOwned = false ∧ packFailure s i x y = some (.fbNotOwned, .operation i.operation)) ∨
    (s.fbOwned = true ∧ ¬ (x.toNat < W ∧ y.toNat < H) ∧ packFailure s i x y = some (.coordinate, .coordinates x y)) ∨
    (s.fbOwned = true ∧ (x.toNat < W ∧ y.toNat < H) ∧ packFailure s i x y = none) := by
  unfold packFailure
  cases hs : s.fbOwned
  · exact .inl ⟨rfl, by simp⟩
  · by_cases hp : x.toNat < W ∧ y.toNat < H
    · exact .inr (.inr ⟨rfl, hp, by simp [(onPanel_iff _ _).mpr hp]⟩)
    · refine .inr (.inl ⟨rfl, hp, ?_⟩)
      have : onPanel x.toNat y.toNat = false := by
        rw [← Bool.not_eq_true, onPanel_iff]; exact hp
      simp [this]

/-- The state check's two outcomes (R160(b)). -/
theorem stateFailure_cases (s : State) (i : Instr) :
    (legalIn i.operation s.dstate = true ∧ stateFailure s i = none) ∨
    (legalIn i.operation s.dstate = false ∧
      stateFailure s i = some (.protocolState, .operationState i.operation s.dstate)) := by
  unfold stateFailure
  cases h : legalIn i.operation s.dstate
  · exact .inr ⟨rfl, by simp⟩
  · exact .inl ⟨rfl, by simp⟩

/-! ### The busy wait -/

/-- One sample's three outcomes (R146): the operation goes on, it times out, or it waits on. -/
theorem State.poll_cases (s : State) (h : Inflight) (l : Level) :
    (l = s.cfg.busyDoneLevel ∧
      s.poll h l = ({ s with busySamples := s.busySamples + 1, trace := s.trace ++ [.busy l] } : State).resume h s) ∨
    (l ≠ s.cfg.busyDoneLevel ∧ PollLimit.reached s.cfg.busyTimeout (h.polls + 1) = true ∧
      s.poll h l = ({ s with busySamples := s.busySamples + 1, trace := s.trace ++ [.busy l] } : State).timeout h) ∨
    (l ≠ s.cfg.busyDoneLevel ∧ PollLimit.reached s.cfg.busyTimeout (h.polls + 1) = false ∧
      s.poll h l = { s with
        busySamples := s.busySamples + 1
        trace := s.trace ++ [.busy l, .delay 5]
        inflight := some { h with step := h.step + 2, polls := h.polls + 1 } }) := by
  unfold State.poll
  by_cases hl : l = s.cfg.busyDoneLevel
  · exact .inl ⟨hl, by simp [hl, State.emit]⟩
  · cases hr : PollLimit.reached s.cfg.busyTimeout (h.polls + 1)
    · exact .inr (.inr ⟨hl, rfl, by simp [hl, State.emit, State.delay, pollMs]⟩)
    · exact .inr (.inl ⟨hl, rfl, by simp [hl, State.emit]⟩)

/-! ### The step -/

/-- What the block does next (R77): it is held, it waits, it takes an illegal word, or it takes a request. -/
theorem State.fetch_cases (s : State) :
    (∃ h, s.inflight = some h ∧ s.fetch = .held h) ∨
    (s.inflight = none ∧ s.requests = [] ∧ s.fetch = .idle) ∨
    (∃ q rest e, s.inflight = none ∧ s.requests = q :: rest ∧ decode q = .error e ∧ s.fetch = .illegal q) ∨
    (∃ q rest i, s.inflight = none ∧ s.requests = q :: rest ∧ decode q = .ok i ∧ s.fetch = .request i) := by
  unfold State.fetch
  cases hi : s.inflight with
  | some h => exact .inl ⟨h, rfl, rfl⟩
  | none =>
    cases hr : s.requests with
    | nil => exact .inr (.inl ⟨rfl, rfl, rfl⟩)
    | cons q rest =>
      cases hd : decode q with
      | error e => exact .inr (.inr (.inl ⟨q, rest, e, rfl, rfl, hd, by simp [hd]⟩))
      | ok i => exact .inr (.inr (.inr ⟨q, rest, i, rfl, rfl, hd, by simp [hd]⟩))

/-- What a step can do, once: poll, wait, refuse a word, or run an operation. -/
theorem step_cases {s t : State} (h : step s = .next t) :
    (∃ p, s.inflight = some p ∧ t = s.poll p (Config.busySample s.busySamples)) ∨
    (s.inflight = none ∧ s.requests = [] ∧ t = s) ∨
    (∃ q rest e, s.inflight = none ∧ s.requests = q :: rest ∧ decode q = .error e ∧ t = s.accept.raiseIllegal q) ∨
    (∃ q rest i, s.inflight = none ∧ s.requests = q :: rest ∧ decode q = .ok i ∧ exec i s.accept = .next t) := by
  unfold step at h
  rcases s.fetch_cases with ⟨p, hi, hf⟩ | ⟨hi, hr, hf⟩ | ⟨q, rest, e, hi, hr, hd, hf⟩ | ⟨q, rest, i, hi, hr, hd, hf⟩ <;>
    rw [hf] at h
  · exact .inl ⟨p, hi, by simpa using h.symm⟩
  · exact .inr (.inl ⟨hi, hr, by simpa using h.symm⟩)
  · exact .inr (.inr (.inl ⟨q, rest, e, hi, hr, hd, by simpa using h.symm⟩))
  · exact .inr (.inr (.inr ⟨q, rest, i, hi, hr, hd, h⟩))

/-! ### The quantizer's loop -/

theorem distance_nonneg (p : Adjusted) (c : Rgb) : 0 ≤ distance p c := by
  unfold distance; positivity

theorem clamp_range (v : Int) : 0 ≤ clamp v 0 255 ∧ clamp v 0 255 ≤ 255 := by
  unfold clamp; split
  · omega
  · split <;> omega

end Sys2Proof.Machine
end

