-- ==== Sys2Proof/Laws/Exec.lean ====
section
/-! SUPPORT. What each operation can do, said once: the ways an operation ends as whole records, what one BUSY sample can
do, and what `exec` can answer. -/

namespace Sys2Proof.Machine

theorem State.raise_eq (s : State) (q : RequestWord) (st : Status) (info : ErrInfo) :
    s.raise q st info = { s with
      err := st
      errlog := s.errlog ++ [{ request := q, status := st, info := info }]
      faulted := faultedAfter s.faulted st
      inflight := none
      responses := s.responses ++ [{ status := st, result := 0#2, resultValid := false }] } := (rfl)

theorem State.respond_none_eq (s : State) (st : Status) :
    s.respond st none = { s with
      err := st
      responses := s.responses ++ [{ status := st, result := 0#2, resultValid := false }] } := (rfl)

theorem State.complete_eq (s : State) :
    s.complete = { s with
      err := .ok
      inflight := none
      responses := s.responses ++ [{ status := .ok, result := 0#2, resultValid := false }] } := (rfl)

theorem State.timeout_eq (s : State) (h : Inflight) :
    s.timeout h = { s with
      dstate := .uninitialized
      fbOwned := if timeoutReleases h.point.instr.operation then false else s.fbOwned
      err := .deviceTimeout
      errlog := s.errlog ++
        [{ request := encode h.point.instr, status := .deviceTimeout, info := .wait h.point.waitNumber }]
      inflight := none
      responses := s.responses ++ [{ status := .deviceTimeout, result := 0#2, resultValid := false }] } := by
  simp [State.timeout, State.raise_eq, faultedAfter, Status.isFault, Status.code]

/-- FB_ALLOC after its draw: a fresh framebuffer, or ALLOCATION_ERROR (R122, R204). -/
theorem State.allocate_cases (s : State) (ok : Bool) :
    (ok = true ∧ s.allocate ok = { s with
      fb := [], fbGen := s.fbGen + 1, fbw := 0#NPIX, fbOwned := true, err := .ok
      responses := s.responses ++ [{ status := .ok, result := 0#2, resultValid := false }] }) ∨
    (ok = false ∧ s.allocate ok = s.raise (encode .fbAlloc) .allocationError .nothing) := by
  cases ok
  · exact .inr ⟨rfl, rfl⟩
  · exact .inl ⟨rfl, rfl⟩

/-- How an operation goes on after its wait (R165 to R168, R171): it ends with the transmission, it sends power off and
waits again, it transmits and refreshes and waits again, or it ends in `Ready`. -/
theorem State.resume_cases (s : State) (h : Inflight) (since : State) :
    (h.point = .writeFramebuffer ∧ s.resume h since = { s with
      dc := .high, cs := s.cfg.csActiveLevel.not, trace := s.trace ++ ramEvents s.cfg s.fbBytes
      fbOwned := false, inflight := none, err := .ok
      responses := s.responses ++ [{ status := .ok, result := 0#2, resultValid := false }] }) ∨
    (∃ p n, ((h.point = .refreshFirst ∧ p = .refreshSecond) ∨ ∃ c, h.point = .clearSecond c ∧ p = .clearThird c) ∧
      n = h.step + ((s.trace ++ entryEvents (powerOffEntry s.cfg)).length - since.trace.length) ∧
      s.resume h since = { s with
        dc := .high, cs := s.cfg.csActiveLevel.not, trace := s.trace ++ entryEvents (powerOffEntry s.cfg)
        inflight := some { point := p, step := n, polls := 0 } }) ∨
    (∃ c n, h.point = .clearFirst c ∧
      n = h.step + ((s.trace ++ (ramEvents s.cfg s.fbBytes ++ entryEvents (refreshEntry s.cfg))).length -
        since.trace.length) ∧
      s.resume h since = { s with
        dc := .high, cs := s.cfg.csActiveLevel.not
        trace := s.trace ++ (ramEvents s.cfg s.fbBytes ++ entryEvents (refreshEntry s.cfg))
        fbOwned := false, dstate := .refreshing
        inflight := some { point := .clearSecond c, step := n, polls := 0 } }) ∨
    ((h.point = .refreshSecond ∨ ∃ c, h.point = .clearThird c) ∧ s.resume h since = { s with
      dstate := .ready, inflight := none, err := .ok
      responses := s.responses ++ [{ status := .ok, result := 0#2, resultValid := false }] }) := by
  unfold State.resume
  cases h.point with
  | writeFramebuffer => refine .inl ⟨rfl, ?_⟩; simp only; rw [State.transmitTail_eq, State.complete_eq]
  | refreshFirst =>
    refine .inr (.inl ⟨_, _, .inl ⟨rfl, rfl⟩, rfl, ?_⟩)
    simp only; rw [State.sendEntry_eq]; simp [State.holdAt, powerOffEntry]
  | refreshSecond => exact .inr (.inr (.inr ⟨.inl rfl, rfl⟩))
  | clearFirst c =>
    refine .inr (.inr (.inl ⟨c, _, rfl, rfl, ?_⟩))
    simp only; rw [State.transmitTail_eq, State.sendEntry_eq]; simp [State.setDState, State.holdAt, refreshEntry]
  | clearSecond c =>
    refine .inr (.inl ⟨_, _, .inr ⟨c, rfl, rfl⟩, rfl, ?_⟩)
    simp only; rw [State.sendEntry_eq]; simp [State.holdAt, powerOffEntry]
  | clearThird c => exact .inr (.inr (.inr ⟨.inr ⟨c, rfl⟩, rfl⟩))

/-- What `exec` can answer, operation by operation: a fault before the first effect, or the operation's own effect with
the checks that it passed. -/
theorem exec_cases {s t : State} {i : Instr} (h : exec i s = .next t) :
    (∃ st info, st.isFault = true ∧ t = s.raise (encode i) st info) ∨
    (∃ r g b x y idx, i = .quantize r g b x y ∧ idx = quantizeIndex s.cfg r g b x.toNat y.toNat ∧
      t = (s.setRes idx).respond .ok (some idx)) ∨
    (∃ r g b x y idx, i = .packPixel r g b x y ∧ idx = quantizeIndex s.cfg r g b x.toNat y.toNat ∧
      s.fbOwned = true ∧ (x.toNat < W ∧ y.toNat < H) ∧
      t = ((s.pack x.toNat y.toNat idx).setRes idx).respond .ok (some idx)) ∨
    (∃ idx x y, (i = .packIndex idx x y ∨ (i = .packPad x y ∧ idx = 1#2)) ∧ s.fbOwned = true ∧
      (x.toNat < W ∧ y.toNat < H) ∧ t = (s.pack x.toNat y.toNat idx).respond .ok none) ∨
    (i = .fbAlloc ∧ s.fbOwned = false ∧
      t = ({ s with allocDraws := s.allocDraws + 1 } : State).allocate s.allocOk) ∨
    (i = .fbDiscard ∧ s.fbOwned = true ∧ t = ({ s with fbOwned := false } : State).respond .ok none) ∨
    (i = .resetPanel ∧ t = (s.resetPulse.setDState .awaitingReset).respond .ok none) ∨
    (i = .initializePanel ∧ s.dstate = .awaitingReset ∧
      t = ((s.sendEntries s.cfg.initSeq).setDState .ready).respond .ok none) ∨
    (i = .writeFramebuffer ∧ s.dstate = .ready ∧ s.fbOwned = true ∧
      t = (s.setDState .transmitting).transmitHead.holdAt .writeFramebuffer 0 s) ∨
    (i = .refreshPanel ∧ s.dstate = .transmitting ∧
      t = ((s.setDState .refreshing).sendEntry (refreshEntry s.cfg)).holdAt .refreshFirst 0 s) ∨
    (i = .sleepPanel ∧ s.dstate = .ready ∧
      t = ((((s.sendEntry (powerOffEntry s.cfg)).sendEntry s.cfg.deepSleep).delay sleepSettleMs).setDState
        .sleeping).respond .ok none) ∨
    (∃ c, i = .clearPanel c ∧ s.dstate = .ready ∧
      t = (({ s.fillFb c with fbw := BitVec.allOnes NPIX, fbOwned := true } : State).setDState
        .transmitting).transmitHead.holdAt (.clearFirst c) 0 s) := by
  cases i with
  | quantize r g b x y =>
    simp only [exec, execQuantize, Host.Outcome.next.injEq] at h
    exact .inr (.inl ⟨r, g, b, x, y, _, rfl, rfl, h.symm⟩)
  | packPixel r g b x y =>
    simp only [exec, execPackPixel, Host.Outcome.next.injEq] at h
    rcases packFailure_cases s (.packPixel r g b x y) x y with ⟨_, e⟩ | ⟨_, _, e⟩ | ⟨h1, h2, e⟩ <;> rw [e] at h
    · exact .inl ⟨_, _, rfl, h.symm⟩
    · exact .inl ⟨_, _, rfl, h.symm⟩
    · exact .inr (.inr (.inl ⟨r, g, b, x, y, _, rfl, rfl, h1, h2, h.symm⟩))
  | packIndex idx x y =>
    simp only [exec, execPackIndex, Host.Outcome.next.injEq] at h
    rcases packFailure_cases s (.packIndex idx x y) x y with ⟨_, e⟩ | ⟨_, _, e⟩ | ⟨h1, h2, e⟩ <;> rw [e] at h
    · exact .inl ⟨_, _, rfl, h.symm⟩
    · exact .inl ⟨_, _, rfl, h.symm⟩
    · exact .inr (.inr (.inr (.inl ⟨idx, x, y, .inl rfl, h1, h2, h.symm⟩)))
  | packPad x y =>
    simp only [exec, execPackPad, Host.Outcome.next.injEq] at h
    rcases packFailure_cases s (.packPad x y) x y with ⟨_, e⟩ | ⟨_, _, e⟩ | ⟨h1, h2, e⟩ <;> rw [e] at h
    · exact .inl ⟨_, _, rfl, h.symm⟩
    · exact .inl ⟨_, _, rfl, h.symm⟩
    · exact .inr (.inr (.inr (.inl ⟨1, x, y, .inr ⟨rfl, rfl⟩, h1, h2, h.symm⟩)))
  | fbAlloc =>
    simp only [exec, execFbAlloc, Host.Outcome.next.injEq] at h
    cases ho : s.fbOwned <;> simp [ho] at h
    · exact .inr (.inr (.inr (.inr (.inl ⟨rfl, rfl, h.symm⟩))))
    · exact .inl ⟨_, _, rfl, h.symm⟩
  | fbDiscard =>
    simp only [exec, execFbDiscard, Host.Outcome.next.injEq] at h
    cases ho : s.fbOwned <;> simp [ho] at h
    · exact .inl ⟨_, _, rfl, h.symm⟩
    · exact .inr (.inr (.inr (.inr (.inr (.inl ⟨rfl, rfl, h.symm⟩)))))
  | resetPanel =>
    simp only [exec, execResetPanel, Host.Outcome.next.injEq] at h
    iterate 6 right
    exact .inl ⟨rfl, h.symm⟩
  | initializePanel =>
    simp only [exec, execInitializePanel, Host.Outcome.next.injEq] at h
    rcases stateFailure_cases s .initializePanel with ⟨l, e⟩ | ⟨_, e⟩ <;> rw [e] at h
    · iterate 7 right
      exact .inl ⟨rfl, by simpa [legalIn, Instr.operation] using l, h.symm⟩
    · exact .inl ⟨_, _, rfl, h.symm⟩
  | writeFramebuffer =>
    simp only [exec, execWriteFramebuffer, Host.Outcome.next.injEq] at h
    rcases stateFailure_cases s .writeFramebuffer with ⟨l, e⟩ | ⟨_, e⟩ <;> rw [e] at h
    · cases ho : s.fbOwned <;> simp [ho] at h
      · exact .inl ⟨_, _, rfl, h.symm⟩
      · iterate 8 right
        exact .inl ⟨rfl, by simpa [legalIn, Instr.operation] using l, rfl, h.symm⟩
    · exact .inl ⟨_, _, rfl, h.symm⟩
  | refreshPanel =>
    simp only [exec, execRefreshPanel, Host.Outcome.next.injEq] at h
    rcases stateFailure_cases s .refreshPanel with ⟨l, e⟩ | ⟨_, e⟩ <;> rw [e] at h
    · iterate 9 right
      exact .inl ⟨rfl, by simpa [legalIn, Instr.operation] using l, h.symm⟩
    · exact .inl ⟨_, _, rfl, h.symm⟩
  | sleepPanel =>
    simp only [exec, execSleepPanel, Host.Outcome.next.injEq] at h
    rcases stateFailure_cases s .sleepPanel with ⟨l, e⟩ | ⟨_, e⟩ <;> rw [e] at h
    · iterate 10 right
      exact .inl ⟨rfl, by simpa [legalIn, Instr.operation] using l, h.symm⟩
    · exact .inl ⟨_, _, rfl, h.symm⟩
  | clearPanel c =>
    simp only [exec, execClearPanel, Host.Outcome.next.injEq] at h
    rcases stateFailure_cases s (.clearPanel c) with ⟨l, e⟩ | ⟨_, e⟩ <;> rw [e] at h
    · iterate 11 right
      exact ⟨c, rfl, by simpa [legalIn, Instr.operation] using l, h.symm⟩
    · exact .inl ⟨_, _, rfl, h.symm⟩

end Sys2Proof.Machine
end

