-- ==== Sys2Proof/Laws/Packs.lean ====
section
/-! SUPPORT. What a pack operation does, whichever of the three it is; and what adding requests at the end does to a
run and to the index last packed. -/

namespace Sys2Proof.Machine

/-- A pack operation that passes its checks (R120): the pack of its target, OK, and for PACK_PIXEL alone a result
(R124 to R126). -/
theorem exec_packTarget {s : State} {i : Instr} {idx : BitVec 2} {x y : Coord}
    (ht : packTarget s.cfg i = some (idx, x, y)) (ho : s.fbOwned = true) (hx : x.toNat < W) (hy : y.toNat < H) :
    ∃ r v a, exec i s = .next { s.pack x.toNat y.toNat idx with
        res := r, resValid := v, err := .ok, responses := s.responses ++ [a] } ∧
      (i.operation ≠ .packPixel → r = s.res ∧ v = s.resValid ∧ a = ⟨.ok, 0#2, false⟩) ∧
      (i.operation = .packPixel → r = idx ∧ v = true ∧ a = ⟨.ok, idx, true⟩) := by
  have ok : ∀ i, packFailure s i x y = none := fun i => by simp [packFailure, ho, onPanel, hx, hy]
  cases i <;> simp only [packTarget, Option.some.injEq, Prod.mk.injEq, reduceCtorEq] at ht <;>
    obtain ⟨rfl, rfl, rfl⟩ := ht
  · refine ⟨_, _, _, by simp only [exec, execPackPixel, ok]; rfl, ?_, fun _ => ⟨rfl, rfl, rfl⟩⟩
    exact fun h => absurd rfl h
  · refine ⟨_, _, _, by simp only [exec, execPackIndex, ok]; rfl, fun _ => ⟨rfl, rfl, rfl⟩, ?_⟩
    exact fun h => absurd h (by simp [Instr.operation])
  · refine ⟨_, _, _, by simp only [exec, execPackPad, ok]; rfl, fun _ => ⟨rfl, rfl, rfl⟩, ?_⟩
    exact fun h => absurd h (by simp [Instr.operation])

theorem runAll_append (is js : List Instr) (s : State) : runAll (is ++ js) s = (runAll is s).bind (runAll js) := by
  induction is generalizing s with
  | nil => rfl
  | cons i is ih => simp only [List.cons_append, runAll]; split <;> simp_all

/-- One more pack at the end decides its own pixel and no other (R128). -/
theorem lastIndex_append {c : Config} {i : Instr} {idx : BitVec 2} {px py : Coord}
    (ht : packTarget c i = some (idx, px, py)) (is : List Instr) (x y : Nat) :
    lastIndex c (is ++ [i]) x y = if px.toNat = x ∧ py.toNat = y then some idx else lastIndex c is x y := by
  unfold lastIndex
  rw [List.filterMap_append, List.filter_append]
  by_cases h : px.toNat = x ∧ py.toNat = y <;> simp [ht, h]

/-- Where some pack has this pixel for its target, and all that have write `v` there, `v` is the index last packed. -/
theorem lastIndex_eq_some {c : Config} {is : List Instr} {x y : Nat} {v : BitVec 2}
    (all : ∀ i ∈ is, ∀ idx px py, packTarget c i = some (idx, px, py) → px.toNat = x → py.toNat = y → idx = v)
    (some_ : ∃ i ∈ is, ∃ idx px py, packTarget c i = some (idx, px, py) ∧ px.toNat = x ∧ py.toNat = y) :
    lastIndex c is x y = some v := by
  obtain ⟨i, hi, idx, px, py, ht, hx, hy⟩ := some_
  have hm : (idx, px, py) ∈ (is.filterMap (packTarget c)).filter fun p => p.2.1.toNat = x ∧ p.2.2.toNat = y :=
    List.mem_filter.mpr ⟨List.mem_filterMap.mpr ⟨i, hi, ht⟩, by simp [hx, hy]⟩
  have hl := List.getLast_mem (List.ne_nil_of_mem hm)
  obtain ⟨hl, hp⟩ := List.mem_filter.mp hl
  obtain ⟨j, hj, hjt⟩ := List.mem_filterMap.mp hl
  simp only [decide_eq_true_eq] at hp
  unfold lastIndex
  rw [List.getLast?_eq_some_getLast (List.ne_nil_of_mem hm), Option.map_some,
    all j hj _ _ _ hjt hp.1 hp.2]

end Sys2Proof.Machine
end

