-- ==== Sys2Proof/Laws/PerInstr.lean ====
section
/-! SUPPORT. Statements about every instruction as syntax, with one lemma for each constructor: what the fields of its
request word hold. -/

namespace Sys2Proof

/-- The top four bits of a word made of an opcode and 60 bits. -/
theorem extract_opcode (op : BitVec 4) (f : BitVec 60) :
    BitVec.extractLsb' 60 4 (op ++ f : BitVec 64) = op := by
  have h : BitVec.extractLsb' 60 4 (op ++ f) = BitVec.extractLsb' (60 - 60) 4 op :=
    BitVec.extractLsb'_append_eq_of_le (Nat.le_refl 60)
  exact h.trans (by simp)

/-- A field below the opcode is a field of the 60 bits. -/
theorem extract_fields (op : BitVec 4) (f : BitVec 60) {start len : Nat} (h : start + len ≤ 60) :
    BitVec.extractLsb' start len (op ++ f : BitVec 64) = BitVec.extractLsb' start len f :=
  BitVec.extractLsb'_append_eq_of_add_le h

/-- The fields of F-RGBXY (R71). -/
theorem rgbxy_fields (r g b : Byte) (x y : Coord) :
    let f : BitVec 60 := 0#4 ++ r ++ g ++ b ++ y ++ x
    f.extractLsb' 56 4 = 0#4 ∧ f.extractLsb' 48 8 = r ∧ f.extractLsb' 40 8 = g ∧ f.extractLsb' 32 8 = b ∧
      f.extractLsb' 16 16 = y ∧ f.extractLsb' 0 16 = x := by
  refine ⟨?_, ?_, ?_, ?_, ?_, ?_⟩ <;>
    (refine BitVec.eq_of_getLsbD_eq fun i hi => ?_
     rw [BitVec.getLsbD_extractLsb']
     simp only [hi, decide_true, Bool.true_and]
     repeat' (rw [BitVec.getLsbD_append]; split)
     all_goals first | (exfalso; omega) | (congr 1; omega))

/-- The fields of F-IXY (R71). -/
theorem ixy_fields (idx : BitVec 2) (x y : Coord) :
    let f : BitVec 60 := 0#26 ++ idx ++ y ++ x
    f.extractLsb' 34 26 = 0#26 ∧ f.extractLsb' 32 2 = idx ∧ f.extractLsb' 16 16 = y ∧ f.extractLsb' 0 16 = x := by
  refine ⟨?_, ?_, ?_, ?_⟩ <;>
    (refine BitVec.eq_of_getLsbD_eq fun i hi => ?_
     rw [BitVec.getLsbD_extractLsb']
     simp only [hi, decide_true, Bool.true_and]
     repeat' (rw [BitVec.getLsbD_append]; split)
     all_goals first | (exfalso; omega) | (congr 1; omega))

/-- The fields of F-XY (R71). -/
theorem xy_fields (x y : Coord) :
    let f : BitVec 60 := 0#28 ++ y ++ x
    f.extractLsb' 32 28 = 0#28 ∧ f.extractLsb' 16 16 = y ∧ f.extractLsb' 0 16 = x := by
  refine ⟨?_, ?_, ?_⟩ <;>
    (refine BitVec.eq_of_getLsbD_eq fun i hi => ?_
     rw [BitVec.getLsbD_extractLsb']
     simp only [hi, decide_true, Bool.true_and]
     repeat' (rw [BitVec.getLsbD_append]; split)
     all_goals first | (exfalso; omega) | (congr 1; omega))

/-- The fields of F-C (R71). -/
theorem color_fields (color : Byte) :
    let f : BitVec 60 := 0#52 ++ color
    f.extractLsb' 8 52 = 0#52 ∧ f.extractLsb' 0 8 = color := by
  refine ⟨?_, ?_⟩ <;>
    (refine BitVec.eq_of_getLsbD_eq fun i hi => ?_
     rw [BitVec.getLsbD_extractLsb']
     simp only [hi, decide_true, Bool.true_and]
     repeat' (rw [BitVec.getLsbD_append]; split)
     all_goals first | (exfalso; omega) | (congr 1; omega))

namespace Laws

/-- The operands of an instruction are what the fields of `q` hold (R72 to R76). -/
def operandsIn (q : RequestWord) : Instr → Prop
  | .quantize r g b x y | .packPixel r g b x y =>
    fieldR q = r ∧ fieldG q = g ∧ fieldB q = b ∧ fieldX q = x ∧ fieldY q = y
  | .packIndex idx x y => fieldIdx q = idx ∧ fieldX q = x ∧ fieldY q = y
  | .packPad x y => fieldX q = x ∧ fieldY q = y
  | .clearPanel color => fieldColor q = color
  | .fbAlloc | .fbDiscard | .resetPanel | .initializePanel | .writeFramebuffer | .refreshPanel | .sleepPanel => True

/-- The request word of an instruction has its opcode, zero in every bit its format reserves, and its operands. -/
def EncodedFields.Statement (i : Instr) : Prop :=
  (encode i).extractLsb' 60 4 = i.operation.opcode ∧
    reservedClear i.operation.format (encode i) = true ∧ operandsIn (encode i) i

namespace EncodedFields

theorem quantize (r g b : Byte) (x y : Coord) : Statement (.quantize r g b x y) := by
  obtain ⟨h0, hr, hg, hb, hy, hx⟩ := rgbxy_fields r g b x y
  refine ⟨extract_opcode _ _, ?_, ?_, ?_, ?_, ?_, ?_⟩
  · exact beq_iff_eq.mpr ((extract_fields _ _ (by decide)).trans h0)
  all_goals exact (extract_fields _ _ (by decide)).trans (by assumption)

theorem packPixel (r g b : Byte) (x y : Coord) : Statement (.packPixel r g b x y) := by
  obtain ⟨h0, hr, hg, hb, hy, hx⟩ := rgbxy_fields r g b x y
  refine ⟨extract_opcode _ _, ?_, ?_, ?_, ?_, ?_, ?_⟩
  · exact beq_iff_eq.mpr ((extract_fields _ _ (by decide)).trans h0)
  all_goals exact (extract_fields _ _ (by decide)).trans (by assumption)

theorem packIndex (idx : BitVec 2) (x y : Coord) : Statement (.packIndex idx x y) := by
  obtain ⟨h0, hi, hy, hx⟩ := ixy_fields idx x y
  refine ⟨extract_opcode _ _, ?_, ?_, ?_, ?_⟩
  · exact beq_iff_eq.mpr ((extract_fields _ _ (by decide)).trans h0)
  all_goals exact (extract_fields _ _ (by decide)).trans (by assumption)

theorem packPad (x y : Coord) : Statement (.packPad x y) := by
  obtain ⟨h0, hy, hx⟩ := xy_fields x y
  refine ⟨extract_opcode _ _, ?_, ?_, ?_⟩
  · exact beq_iff_eq.mpr ((extract_fields _ _ (by decide)).trans h0)
  all_goals exact (extract_fields _ _ (by decide)).trans (by assumption)

theorem fbAlloc : Statement .fbAlloc := by refine ⟨?_, ?_, trivial⟩ <;> decide

theorem fbDiscard : Statement .fbDiscard := by refine ⟨?_, ?_, trivial⟩ <;> decide

theorem resetPanel : Statement .resetPanel := by refine ⟨?_, ?_, trivial⟩ <;> decide

theorem initializePanel : Statement .initializePanel := by refine ⟨?_, ?_, trivial⟩ <;> decide

theorem writeFramebuffer : Statement .writeFramebuffer := by refine ⟨?_, ?_, trivial⟩ <;> decide

theorem refreshPanel : Statement .refreshPanel := by refine ⟨?_, ?_, trivial⟩ <;> decide

theorem sleepPanel : Statement .sleepPanel := by refine ⟨?_, ?_, trivial⟩ <;> decide

theorem clearPanel (color : Byte) : Statement (.clearPanel color) := by
  obtain ⟨h0, hc⟩ := color_fields color
  refine ⟨extract_opcode _ _, ?_, ?_⟩
  · exact beq_iff_eq.mpr ((extract_fields _ _ (by decide)).trans h0)
  · exact (extract_fields _ _ (by decide)).trans hc

end EncodedFields

end Laws

end Sys2Proof
end

