-- ==== Sys2Proof/Machine/Assembly.lean ====
section
/-! DEFINITION. The assembly syntax of R85: one request a line, a mnemonic and then operands in decimal or `0x`
hexadecimal, separated by commas. Text is a list of characters. No step calls it. -/

namespace Sys2Proof.Machine

/-- The digits in the order of their values. -/
def digitChars : List Char := "0123456789abcdef".toList

/-- The value of a digit of `base`: its place among the first `base` digits, a letter in either case. -/
def digitValue (base : Nat) (c : Char) : Option Nat := (digitChars.take base).idxOf? c.toLower

/-- The number that one or more digits of `base` write, the most significant first. -/
def digitsValue (base : Nat) (cs : List Char) : Option Nat :=
  if cs.isEmpty then none else (cs.mapM (digitValue base)).map (List.foldl (base * · + ·) 0)

/-- An operand of R85: decimal, or hexadecimal after `0x`. -/
def numberValue (cs : List Char) : Option Nat :=
  if "0x".toList.isPrefixOf cs then digitsValue 16 (cs.drop 2) else digitsValue 10 cs

/-- The characters without the spaces at both ends. -/
def trimSpaces (cs : List Char) : List Char :=
  ((cs.dropWhile (· == ' ')).reverse.dropWhile (· == ' ')).reverse

/-- The operands of a line: the parts between its commas, none of an empty line. -/
def operandParts (cs : List Char) : List (List Char) :=
  if trimSpaces cs = [] then [] else (cs.splitOn ',').map trimSpaces

/-- A number that fits in `w` bits. -/
def fits (w n : Nat) : Option (BitVec w) := if n < 2 ^ w then some (BitVec.ofNat w n) else none

/-- The request of an operation with its operands in the order of R85. -/
def assembleOperands : Operation → List Nat → Option Instr
  | .quantize, [r, g, b, x, y] =>
    (fits 8 r).bind fun r => (fits 8 g).bind fun g => (fits 8 b).bind fun b =>
      (fits 16 x).bind fun x => (fits 16 y).map fun y => .quantize r g b x y
  | .packPixel, [r, g, b, x, y] =>
    (fits 8 r).bind fun r => (fits 8 g).bind fun g => (fits 8 b).bind fun b =>
      (fits 16 x).bind fun x => (fits 16 y).map fun y => .packPixel r g b x y
  | .packIndex, [idx, x, y] =>
    (fits 2 idx).bind fun idx => (fits 16 x).bind fun x => (fits 16 y).map fun y => .packIndex idx x y
  | .packPad, [x, y] => (fits 16 x).bind fun x => (fits 16 y).map fun y => .packPad x y
  | .clearPanel, [c] => (fits 8 c).map .clearPanel
  | .fbAlloc, [] => some .fbAlloc
  | .fbDiscard, [] => some .fbDiscard
  | .resetPanel, [] => some .resetPanel
  | .initializePanel, [] => some .initializePanel
  | .writeFramebuffer, [] => some .writeFramebuffer
  | .refreshPanel, [] => some .refreshPanel
  | .sleepPanel, [] => some .sleepPanel
  | _, _ => none

/-- Every operation, in the order of R70. -/
def allOperations : List Operation :=
  [.quantize, .packPixel, .packIndex, .packPad, .fbAlloc, .fbDiscard, .resetPanel, .initializePanel, .writeFramebuffer,
    .refreshPanel, .sleepPanel, .clearPanel]

/-- One line of assembly (R85). -/
def assembleLine (line : List Char) : Option Instr :=
  let cs := trimSpaces line
  let name := cs.takeWhile (· != ' ')
  (allOperations.find? fun op => op.mnemonic.toList == name).bind fun op =>
    ((operandParts (cs.dropWhile (· != ' '))).mapM numberValue).bind (assembleOperands op)

end Sys2Proof.Machine
end

