-- ==== Sys2Proof/Tests/Slice0.lean ====
section
/-! SUPPORT. Tests. Expected results are those of spec/95_test_vectors.md, cited by section, or hand calculation from the
rules named. At the end, for each statement with hypotheses, a state that meets them. -/

namespace Sys2Proof.Machine.Tests

/-! ### Helpers -/

/-- The test configuration TC of spec/95: its command bytes are invented for testing and are not the panel's. -/
def tc : Config where
  palette := defaultPalette
  thresh := standardThresholds
  initSeq := [⟨0xC1, [0x01]⟩, ⟨0xC2, []⟩]
  startTx := ⟨0xA1, []⟩
  writeRamCmd := 0xA2
  refreshCmd := 0xA3
  refreshTrigger := 0x00
  powerOffCmd := 0xA4
  powerOffParam := 0x00
  deepSleep := ⟨0xA5, [0xA5]⟩
  busyDoneLevel := .high
  busyTimeout := .inf
  csActiveLevel := .low
  rstAssertLevel := .low
  serialBitOrder := .msbFirst
  allocMayFail := false
  mirrorX := false
  srcPixelOrder := .bgr

/-- TC with a limit of `k + 1` samples. -/
def tcLimit (k : Nat) : Config := { tc with busyTimeout := .polls (k + 1) (Nat.succ_pos k) }

/-- Power-on with the configuration `c`, in driver state `d`, with or without a framebuffer. -/
def at_ (c : Config) (d : DState) (owned : Bool) : State := { State.reset with cfg := c, dstate := d, fbOwned := owned }

/-- The next state of an operation. -/
def after (i : Instr) (s : State) : State :=
  match exec i s with
  | .next t => t
  | .fault _ => State.reset
  | .refused _ => State.reset

/-- The next state of a step. -/
def stepped (s : State) : State :=
  match step s with
  | .next t => t
  | .fault _ => State.reset
  | .refused _ => State.reset

/-- A state that holds `p`, with the two events of REFRESH's first entry sent. -/
def holding (c : Config) (d : DState) (owned : Bool) (p : HoldPoint) : State :=
  { at_ c d owned with
    inflight := some { point := p, step := 2, polls := 0 }
    trace := [.cmd 0xA3, .data 0x00] }

/-! ### Words the well-formedness checks refuse (R80, R81; spec/95 §2.3) -/

theorem test_refuses_reserved_opcode_0 : wellFormedRequest 0x0000000000000000 = false := by decide
theorem test_refuses_reserved_opcode_7 : wellFormedRequest 0x7000000000000000 = false := by decide
theorem test_refuses_reserved_opcode_E : wellFormedRequest 0xE000000000000000 = false := by decide
theorem test_refuses_reserved_opcode_F : wellFormedRequest 0xF123456789ABCDEF = false := by decide
theorem test_refuses_rgbxy_bit_56 : wellFormedRequest 0x1180808000000000 = false := by decide
theorem test_refuses_ixy_bit_34 : wellFormedRequest 0x3000000400000000 = false := by decide
theorem test_refuses_xy_bit_32 : wellFormedRequest 0x4000000100000004 = false := by decide
theorem test_refuses_color_bit_8 : wellFormedRequest 0xD000000000000155 = false := by decide
theorem test_refuses_none_bit_0 : wellFormedRequest 0x5000000000000001 = false := by decide

/-- Each of them is refused by the decoder too, and so are spec/95's others. -/
theorem test_decoder_refuses :
    [0x0000000000000000, 0x7000000000000000, 0xE000000000000000, 0xF123456789ABCDEF, 0x1180808000000000,
      0x2AFF000000000001, 0x3000000400000000, 0x4000000100000004, 0x5000000000000001, 0x8800000000000000,
      0xD000000000000155, 0xDFFFFFFFFFFFFF55].map decode? = List.replicate 12 none := by decide

/-! ### Decoding and encoding of written-out words (R70, R71; spec/95 §2.3 and §3) -/

theorem test_decode_quantize : decode? 0x108C8C8C00010000 = some (.quantize 140 140 140 0 1) := by decide
theorem test_decode_packPixel : decode? 0x20FF000000000003 = some (.packPixel 255 0 0 3 0) := by decide
theorem test_decode_packIndex : decode? 0x3000000300010005 = some (.packIndex 3 5 1) := by decide
theorem test_decode_packPad : decode? 0x4000000000000007 = some (.packPad 7 0) := by decide
theorem test_decode_fbAlloc : decode? 0x5000000000000000 = some .fbAlloc := by decide
theorem test_decode_fbDiscard : decode? 0x6000000000000000 = some .fbDiscard := by decide
theorem test_decode_resetPanel : decode? 0x8000000000000000 = some .resetPanel := by decide
theorem test_decode_initializePanel : decode? 0x9000000000000000 = some .initializePanel := by decide
theorem test_decode_writeFramebuffer : decode? 0xA000000000000000 = some .writeFramebuffer := by decide
theorem test_decode_refreshPanel : decode? 0xB000000000000000 = some .refreshPanel := by decide
theorem test_decode_sleepPanel : decode? 0xC000000000000000 = some .sleepPanel := by decide
theorem test_decode_clearPanel : decode? 0xD0000000000000FF = some (.clearPanel 0xFF) := by decide

/-- Each field apart: the red, green and blue bytes, then `Y`, then `X` (R71). -/
theorem test_encode_fields : encode (.packPixel 0x12 0x34 0x56 0xBCDE 0x789A) = 0x20123456789ABCDE#64 := by decide

/-- P4's second word (spec/95 §3). -/
theorem test_encode_packIndex : encode (.packIndex 0 200 500) = 0x3000000001F400C8#64 := by decide

/-- The assembly lines of R85 and their words. -/
theorem test_assemble :
    (assembleLine "QUANTIZE 140, 140, 0x8C, 1, 0".toList).map encode = some 0x108C8C8C00000001#64 ∧
    (assembleLine "CLEAR 0x55".toList).map encode = some 0xD000000000000055#64 ∧
    assembleLine "FB_ALLOC".toList = some .fbAlloc ∧
    assembleLine "PACK_INDEX 4, 0, 0".toList = none ∧ assembleLine "CLEAR 5A".toList = none ∧
    assembleLine "CLEAR 0x".toList = none ∧ assembleLine "CLEAR 0xaF".toList = some (.clearPanel 175) := by
  decide +kernel

/-! ### Quantizer vectors (spec/95 §2.1, §2.2) -/

/-- The §8 example with its conflict C1, and the spec's witness. -/
theorem test_quantize_gray :
    [(128, 0, 0), (128, 1, 0), (128, 0, 1), (128, 1, 1), (140, 0, 0), (140, 1, 1)].map
      (fun p : Byte × Nat × Nat => quantizeIndex tc p.1 p.1 p.1 p.2.1 p.2.2) = [0#2, 1, 1, 0, 0, 1] := by decide +kernel

/-- Two ties, where the lowest index wins, and coordinates beyond the panel. -/
theorem test_quantize_ties :
    quantizeIndex tc 116 171 16 0 0 = 0#2 ∧ quantizeIndex tc 239 39 184 0 1 = 1#2 ∧
      quantizeIndex tc 255 128 0 1 0 = 2#2 ∧ (after (.quantize 140 140 140 1001 3) (at_ tc .ready false)).res = 1#2 := by
  decide +kernel

/-! ### Packer vectors (spec/95 §2.4) -/

/-- Pixel locations. -/
theorem test_locations :
    [(0, 0), (3, 0), (4, 0), (167, 0), (0, 1), (5, 2), (166, 199), (167, 399)].map
      (fun p : Nat × Nat => (byteOffset p.1 p.2, bitShift p.1)) =
      [(0, 6), (0, 0), (1, 6), (41, 0), (42, 6), (85, 4), (8399, 2), (16799, 0)] := by decide

/-- Read-modify-write of one byte. -/
theorem test_packIndex_bytes :
    setPixelBits 0xFF (bitShift 5) 0 = 0xCF#8 ∧ setPixelBits 0xFF (bitShift 0) 1 = 0x7F#8 ∧
      setPixelBits 0x00 (bitShift 3) 3 = 0x03#8 ∧ setPixelBits 0xA5 (bitShift 167) 2 = 0xA6#8 := by decide

/-- `PACK_INDEX 0, 5, 2` on `FB[85] = 0xFF`. -/
theorem test_packIndex_memory : (after (.packIndex 0 5 2) { at_ tc .ready true with fb := [(85, 0xFF)] }).fbByte 85 = 0xCF := by
  have h : after (.packIndex 0 5 2) { at_ tc .ready true with fb := [(85, 0xFF)] } =
      (({ at_ tc .ready true with fb := [(85, 0xFF)] } : State).pack 5 2 0).respond .ok none := rfl
  rw [h, State.respond_fbByte, State.fbByte_pack]
  decide

/-- `PACK_PIXEL 255, 0, 0, 1, 0` answers (OK, 3). -/
theorem test_packPixel : (after (.packPixel 255 0 0 1 0) (at_ tc .ready true)).responses = [⟨.ok, 3, true⟩] := by
  decide +kernel

/-- The same operands as a QUANTIZE beyond the panel fault COORDINATE. -/
theorem test_packPixel_coordinate :
    (after (.packPixel 140 140 140 1001 3) (at_ tc .ready true)).errlog =
      [⟨0x208C8C8C000303E9#64, .coordinate, .coordinates 1001 3⟩] := by decide +kernel

/-- `PACK_PAD 4, 0` on `FB[1] = 0x00`. -/
theorem test_packPad : (after (.packPad 4 0) { at_ tc .ready true with fb := [(1, 0x00)] }).fbByte 1 = 0x40 := by
  have h : after (.packPad 4 0) { at_ tc .ready true with fb := [(1, 0x00)] } =
      (({ at_ tc .ready true with fb := [(1, 0x00)] } : State).pack 4 0 1).respond .ok none := rfl
  rw [h, State.respond_fbByte, State.fbByte_pack]
  decide

/-- FB_ALLOC twice: OK, then FB_ALREADY_OWNED with FAULTED set (P4, steps 5 and 6). -/
theorem test_fbAlloc_twice :
    (after .fbAlloc (after .fbAlloc (at_ tc .uninitialized false))).responses =
      [⟨.ok, 0, false⟩, ⟨.fbAlreadyOwned, 0, false⟩] := by decide +kernel

/-- FB_DISCARD without a framebuffer, and with one. -/
theorem test_fbDiscard :
    (after .fbDiscard (at_ tc .ready false)).err = .fbNotOwned ∧ (after .fbDiscard (at_ tc .ready true)).fbOwned = false := by
  decide +kernel

/-! ### Driver vectors (spec/95 §2.5 to §2.7) -/

theorem test_resetPanel :
    (after .resetPanel (at_ tc .sleeping false)).dstate = .awaitingReset ∧
      (after .resetPanel (at_ tc .sleeping false)).trace =
        [.rst .asserted, .delay 200, .rst .deasserted, .delay 2, .rst .asserted, .delay 200] := by decide +kernel

theorem test_initializePanel :
    (after .initializePanel (at_ tc .awaitingReset false)).trace = [.cmd 0xC1, .data 0x01, .cmd 0xC2] := by
  decide +kernel

theorem test_initializePanel_in_ready : (after .initializePanel (at_ tc .ready false)).err = .protocolState := by
  decide +kernel

/-- WRITE_FRAMEBUFFER with a limit of 2 and the samples 0 0: the timeout. -/
theorem test_writeFramebuffer_timeout :
    let t := (after .writeFramebuffer (at_ (tcLimit 1) .ready true)).pollAll [.low, .low]
    t.trace = [.cmd 0xA1, .busy .low, .delay 5, .busy .low] ∧ t.err = .deviceTimeout ∧ t.dstate = .uninitialized ∧
      t.fbOwned = false ∧ t.faulted = false := by decide +kernel

/-- State beats ownership. -/
theorem test_writeFramebuffer_priority :
    (after .writeFramebuffer (at_ tc .uninitialized false)).err = .protocolState ∧
      (after .writeFramebuffer (at_ tc .ready false)).err = .fbNotOwned := by decide +kernel

/-- REFRESH with a not-done sample in its first wait. -/
theorem test_refreshPanel :
    let t := (after .refreshPanel (at_ tc .transmitting false)).pollAll [.low, .high, .high]
    t.trace = [.cmd 0xA3, .data 0x00, .busy .low, .delay 5, .busy .high, .cmd 0xA4, .data 0x00, .busy .high] ∧
      t.dstate = .ready ∧ t.err = .ok ∧ t.inflight = none := by decide +kernel

/-- REFRESH with a limit of 2 and the samples 1 0 0: the second wait times out. -/
theorem test_refreshPanel_timeout :
    let t := (after .refreshPanel (at_ (tcLimit 1) .transmitting false)).pollAll [.high, .low, .low]
    t.errlog = [⟨0xB000000000000000, .deviceTimeout, .wait 2⟩] ∧
      t.trace = [.cmd 0xA3, .data 0x00, .busy .high, .cmd 0xA4, .data 0x00, .busy .low, .delay 5, .busy .low] := by
  decide +kernel

theorem test_sleepPanel :
    (after .sleepPanel (at_ tc .ready true)).trace =
        [.cmd 0xA4, .data 0x00, .cmd 0xA5, .data 0xA5, .delay 2000] ∧
      (after .sleepPanel (at_ tc .ready true)).dstate = .sleeping := by decide +kernel

theorem test_sleepPanel_in_transmitting : (after .sleepPanel (at_ tc .transmitting false)).err = .protocolState := by
  decide +kernel

/-- CLEAR up to its first wait. -/
theorem test_clearPanel :
    (after (.clearPanel 0x55) (at_ tc .ready false)).trace = [.cmd 0xA1] ∧
      (after (.clearPanel 0x55) (at_ tc .ready false)).dstate = .transmitting := by decide +kernel

/-- `CLEAR 0x1B` makes `fb_pixel(x, y) = x mod 4` (spec/95 §2.6). -/
theorem test_clearPanel_pattern : (List.range 4).map (fun x => getPixelBits 0x1B (bitShift x)) = [0#2, 1, 2, 3] := by
  decide

/-! ### The step -/

/-- A word presented after reset is the first that runs. -/
theorem test_first_step : step (State.reset.withFetchWord 64 0x8000000000000000) = exec .resetPanel State.reset := rfl

/-- Step 4 of P4: a reserved bit, as the first request after power-on. -/
theorem test_illegal_first :
    (stepped (State.reset.withFetchWord 64 0x1180808000000000)).errlog =
      [⟨0x1180808000000000, .illegalOperation, .request 0x1180808000000000⟩] := by decide +kernel

/-- The bits of 0xA5 on the wire, in both orders (R142). -/
theorem test_wireBits :
    wireBits .msbFirst 0xC1 = [true, true, false, false, false, false, false, true] ∧
      wireBits .lsbFirst 0xC1 = [true, false, false, false, false, false, true, true] := by decide

/-- The first and the last pack of P6 (spec/95 §3): rows bottom-up, columns left to right. -/
theorem test_feed_order :
    (feedRow tc 0 []).head?.map encode = some 0x20000000018F0000#64 ∧
      (feedRow tc 399 []).getLast?.map encode = some 0x20000000000000A7#64 := by decide +kernel

/-- A whole row, and one that ends after half its pixels (L1.5 of spec/95): its missing pixels are zero (R8(f)). -/
theorem test_feed_truncated :
    rowTruncated (List.replicate 504 0xFF) = false ∧ rowTruncated (List.replicate 252 0xFF) = true ∧
      feedPixel tc (List.replicate 252 0xFF) 83 399 = .packPixel 0xFF 0xFF 0xFF 83 399 ∧
      feedPixel tc (List.replicate 252 0xFF) 84 399 = .packPixel 0 0 0 84 399 := by decide +kernel

/-- A refused header: nothing to the packer, and the blank cycle (R10, R211). -/
theorem test_bad_header :
    imageRequests 0x55 feedBadHeader = [.resetPanel, .initializePanel, .clearPanel 0x55] := by decide +kernel

/-! ### States that meet the hypotheses of the statements, one theorem for each statement that has some -/

/-- `at_` with the requests `qs` presented. -/
def asking (c : Config) (d : DState) (owned : Bool) (qs : List RequestWord) : State :=
  { at_ c d owned with requests := qs }

/-- TC with the level of the first BUSY sample as the done level. -/
def tcDone : Config := { tc with busyDoneLevel := Config.busySample 0 }

/-- DecodeThenEncodeGivesTheWord. -/
theorem witness_decode_then_encode : decode 0x30000002018F00A7#64 = .ok (.packIndex 2 167 399) := rfl

/-- StepRunsTheDecodedRequest. -/
theorem witness_step :
    (asking tc .ready true [0xC000000000000000]).inflight = none ∧
      (asking tc .ready true [0xC000000000000000]).requests = 0xC000000000000000 :: [] ∧
      decode 0xC000000000000000#64 = .ok .sleepPanel := ⟨rfl, rfl, rfl⟩

/-- IllegalWordsHaveNoOtherEffect: a reserved opcode, and a reserved bit. -/
theorem witness_illegal :
    (asking tc .ready true [0xF000000000000000, 0x5000000000000001]).inflight = none ∧
      wellFormedRequest 0xF000000000000000 = false ∧ wellFormedRequest 0x5000000000000001 = false := by decide

/-- HeldBlockAcceptsNothingAndSendsNothing. -/
theorem witness_held :
    (holding tc .refreshing false .refreshFirst).inflight = some ⟨.refreshFirst, 2, 0⟩ ∧
      Level.low ≠ (holding tc .refreshing false .refreshFirst).cfg.busyDoneLevel := by decide

/-- GraysDitherByPosition, with its four boundary grays. -/
theorem witness_grays :
    tc.palette = defaultPalette ∧ tc.thresh = standardThresholds ∧
      [133, 134, 143, 144].map (fun v : Byte => decide (quantizeIndex tc v v v 0 0 ≠ quantizeIndex tc v v v 1 1)) =
        [false, true, true, false] := by decide +kernel

/-- ByteIsItsFourPixels, at its last byte. -/
theorem witness_byte : (399 < H ∧ 41 < BPR) ∧ BPR * 399 + 41 = 16799 := by decide

/-- PackIndexAndPadWriteOnePixel and PackPixelRoundTrip, at the last pixel. -/
theorem witness_pack :
    (at_ tc .ready true).fbOwned = true ∧ (167 : Coord).toNat < 168 ∧ (399 : Coord).toNat < 400 := by decide

/-- PackChecksInOrder: no framebuffer; the first column and the first row beyond the panel. -/
theorem witness_pack_checks :
    (at_ tc .ready false).fbOwned = false ∧ (at_ tc .ready true).fbOwned = true ∧
      ¬ ((168 : Coord).toNat < 168 ∧ (399 : Coord).toNat < 400) ∧
      ¬ ((167 : Coord).toNat < 168 ∧ (400 : Coord).toNat < 400) := by decide

/-- PacksCommuteOrOverwrite: a PACK_INDEX, a PACK_PIXEL and a PACK_PAD, on two pixels of one byte and on one. -/
theorem witness_commute :
    packTarget (at_ tc .ready true).cfg (.packIndex 3 166 399) = some (3, 166, 399) ∧
      packTarget (at_ tc .ready true).cfg (.packPixel 255 0 0 167 399) = some (3, 167, 399) ∧
      packTarget (at_ tc .ready true).cfg (.packPad 167 399) = some (1, 167, 399) ∧
      (at_ tc .ready true).fbOwned = true ∧ Memory.wf (at_ tc .ready true).fbDrawn (at_ tc .ready true).fb ∧
      ((166, 399) : Coord × Coord) ≠ (167, 399) ∧ (167 : Coord).toNat < 168 ∧ (399 : Coord).toNat < 400 :=
  ⟨rfl, by decide +kernel, rfl, rfl, Memory.wf_nil _, by decide, by decide, by decide⟩

/-- Three packs of the last pixel, one of each operation. -/
def threePacks : List Instr := [.packIndex 3 167 399, .packPad 167 399, .packPixel 255 0 0 167 399]

/-- LastPackDecidesEachPixel. -/
theorem witness_last_pack :
    (at_ tc .ready true).fbOwned = true ∧ PacksOnPanel (at_ tc .ready true).cfg threePacks ∧
      lastIndex (at_ tc .ready true).cfg threePacks 167 399 = some 3 := by
  refine ⟨rfl, fun i hi => ?_, by decide +kernel⟩
  simp only [threePacks, List.mem_cons, List.not_mem_nil, or_false] at hi
  rcases hi with rfl | rfl | rfl <;> exact ⟨_, _, _, rfl, by decide, by decide⟩

/-- A PACK_PIXEL of one colour for every pixel of the panel. -/
def everyPixel : List Instr :=
  (List.range NPIX).map fun n => .packPixel 140 140 140 (BitVec.ofNat 16 (n % W)) (BitVec.ofNat 16 (n / W))

/-- CompletePackingLeavesNothingDrawn. -/
theorem witness_complete_packing :
    (at_ tc .ready false).fbOwned = false ∧ (at_ tc .ready false).cfg.allocMayFail = false ∧
      PacksOnPanel (at_ tc .ready false).cfg everyPixel ∧
      ∀ x y, x < W → y < H → (lastIndex (at_ tc .ready false).cfg everyPixel x y).isSome = true := by
  refine ⟨rfl, rfl, fun i hi => ?_, fun x y hx hy => ?_⟩
  · obtain ⟨n, hn, rfl⟩ := List.mem_map.mp hi
    have hn' : n < 67200 := List.mem_range.mp hn
    refine ⟨_, _, _, rfl, ?_, ?_⟩ <;> simp only [BitVec.toNat_ofNat, W, H] <;> omega
  · simp only [W, H] at hx hy
    have h1 : (x + y * 168) % 168 = x := by omega
    have h2 : (x + y * 168) / 168 = y := by omega
    have hm : Instr.packPixel 140 140 140 (BitVec.ofNat 16 x) (BitVec.ofNat 16 y) ∈ everyPixel :=
      List.mem_map.mpr ⟨x + y * 168, List.mem_range.mpr (by simp only [NPIX]; omega), by simp only [W, h1, h2]⟩
    refine Option.isSome_iff_exists.mpr ⟨quantizeIndex tc 140 140 140 x y, lastIndex_eq_some ?_ ?_⟩
    · intro i hi idx px py ht hx' hy'
      obtain ⟨n, -, rfl⟩ := List.mem_map.mp hi
      simp only [packTarget, Option.some.injEq, Prod.mk.injEq] at ht
      obtain ⟨rfl, rfl, rfl⟩ := ht
      rw [hx', hy']; rfl
    · exact ⟨_, hm, _, _, _, rfl, by simp only [BitVec.toNat_ofNat]; omega, by simp only [BitVec.toNat_ofNat]; omega⟩

/-- FbAllocGivesAFreshFramebuffer. -/
theorem witness_fbAlloc :
    (at_ tc .uninitialized false).fbOwned = false ∧ (at_ tc .uninitialized false).cfg.allocMayFail = false := by decide

/-- FbAllocFollowsItsDraw. -/
theorem witness_fbAlloc_draw :
    (at_ { tc with allocMayFail := true } .ready false).fbOwned = false ∧
      (at_ { tc with allocMayFail := true } .ready false).cfg.allocMayFail = true := by decide

/-- DiscardReleasesAndOwnershipFaults. -/
theorem witness_discard : (at_ tc .ready true).fbOwned = true ∧ (at_ tc .sleeping false).fbOwned = false := by decide

/-- InitializeSendsTheTable. -/
theorem witness_initialize :
    (at_ tc .awaitingReset true).dstate = .awaitingReset ∧ (at_ tc .awaitingReset true).cfg.initSeq ≠ [] := by decide

/-- Samples short of the done level, none of them, and one fewer than a limit. -/
theorem witness_waits :
    Waits tc [] ∧ Waits tc [.low, .low, .low] ∧ Waits (tcLimit 1) [.low] :=
  ⟨⟨by decide, by decide⟩, ⟨by decide, by decide⟩, ⟨by decide, by decide⟩⟩

/-- WriteFramebufferSendsEveryByte, SleepCommandsDeepSleep, ClearShowsOneByteEverywhere and RenderSendsTheFrame. -/
theorem witness_ready :
    (at_ (tcLimit 1) .ready true).dstate = .ready ∧ (at_ (tcLimit 1) .ready true).fbOwned = true ∧
      Waits (at_ (tcLimit 1) .ready true).cfg [.low] := ⟨rfl, rfl, ⟨by decide, by decide⟩⟩

/-- RefreshRunsItsTwoWaits. -/
theorem witness_transmitting :
    (at_ (tcLimit 1) .transmitting false).dstate = .transmitting ∧
      Waits (at_ (tcLimit 1) .transmitting false).cfg [.low] ∧ Waits (at_ (tcLimit 1) .transmitting false).cfg [] :=
  ⟨rfl, ⟨by decide, by decide⟩, ⟨by decide, by decide⟩⟩

/-- DriverChecksInOrder, both halves. -/
theorem witness_driver_checks :
    ((Instr.refreshPanel, DState.transmitting) ∈ [(Instr.initializePanel, DState.awaitingReset),
      (.writeFramebuffer, .ready), (.refreshPanel, .transmitting), (.sleepPanel, .ready), (.clearPanel 0, .ready)] ∧
      (at_ tc .ready true).dstate ≠ .transmitting) ∧
    (at_ tc .ready false).dstate = .ready ∧ (at_ tc .ready false).fbOwned = false := by decide

/-- TimeoutAtTheLimit: the third sample of a limit of 3. -/
theorem witness_timeout :
    (holding (tcLimit 2) .refreshing true .refreshSecond).inflight = some ⟨.refreshSecond, 2, 0⟩ ∧
      (holding (tcLimit 2) .refreshing true .refreshSecond).cfg.busyTimeout = .polls 3 (by decide) ∧
      (∀ m ∈ [Level.low, .low] ++ [Level.low], m ≠ (holding (tcLimit 2) .refreshing true .refreshSecond).cfg.busyDoneLevel) ∧
      0 + [Level.low, .low].length + 1 = 3 := ⟨rfl, rfl, by decide, rfl⟩

/-- HangWithoutATimeout. -/
theorem witness_hang :
    (holding tc .transmitting true .writeFramebuffer).inflight = some ⟨.writeFramebuffer, 2, 0⟩ ∧
      (holding tc .transmitting true .writeFramebuffer).cfg.busyTimeout = .inf ∧
      ∀ l ∈ [Level.low, .low], l ≠ (holding tc .transmitting true .writeFramebuffer).cfg.busyDoneLevel := by decide

/-- FaultLeavesEverythingElse: COORDINATE at the first column beyond the panel. -/
theorem witness_fault :
    ∃ t, step (asking tc .ready true [0x30000000000000A8]) = .next t ∧
      t.responses = (asking tc .ready true [0x30000000000000A8]).responses ++ [⟨.coordinate, 0, false⟩] ∧
      (⟨.coordinate, 0, false⟩ : Response).status.isFault = true := ⟨_, rfl, by decide +kernel, rfl⟩

/-- ExactlyOneResponsePerRequest: a step that answers, with a valid result. -/
theorem witness_response :
    ∃ t, step (asking tc .ready false [0x1000000000000000]) = .next t ∧ t.responses = [⟨.ok, 0, true⟩] :=
  ⟨_, rfl, by decide +kernel⟩

/-- OnlyResetLeavesSleeping. -/
theorem witness_sleeping :
    (asking tc .sleeping false [0x8000000000000000]).inflight = none ∧
      (asking tc .sleeping false [0x8000000000000000]).dstate = .sleeping ∧
      ∃ t, step (asking tc .sleeping false [0x8000000000000000]) = .next t ∧ t.dstate ≠ .sleeping :=
  ⟨rfl, rfl, _, rfl, by decide +kernel⟩

/-- ReadyIsEnteredOnlyThree, by INITIALIZE. -/
theorem witness_ready_by_initialize :
    (asking tc .awaitingReset false [0x9000000000000000]).dstate ≠ .ready ∧
      ∃ t, step (asking tc .awaitingReset false [0x9000000000000000]) = .next t ∧ t.dstate = .ready :=
  ⟨by decide, _, rfl, by decide +kernel⟩

/-- ReadyIsEnteredOnlyThree, by the end of REFRESH's second wait and of CLEAR's third. -/
theorem witness_ready_by_wait :
    ∀ p, p = .refreshSecond ∨ p = .clearThird 0x55 → (holding tcDone .refreshing false p).dstate ≠ .ready ∧
      ∃ t, step (holding tcDone .refreshing false p) = .next t ∧ t.dstate = .ready := by
  intro p hp
  refine ⟨by rcases hp with rfl | rfl <;> decide, _, rfl, ?_⟩
  have hl : Config.busySample (holding tcDone .refreshing false p).busySamples =
    (holding tcDone .refreshing false p).cfg.busyDoneLevel := rfl
  rcases (holding tcDone .refreshing false p).poll_cases ⟨p, 2, 0⟩
      (Config.busySample (holding tcDone .refreshing false p).busySamples) with ⟨_, e⟩ | ⟨e, _⟩ | ⟨e, _⟩
  · rw [e]; rcases hp with rfl | rfl <;> rfl
  · exact absurd hl e
  · exact absurd hl e

/-- A state whose first byte is listed as 0, with PACK_INDEX 3, 0, 0 presented. -/
def packing : State := { asking tc .ready true [0x3000000300000000] with fb := [(0, 0)] }

/-- OnlyFiveOperationsWriteTheFramebuffer. -/
theorem witness_framebuffer_written : ∃ t, step packing = .next t ∧ t.fbByte 0 ≠ packing.fbByte 0 := by
  refine ⟨(packing.accept.pack 0 0 3).respond .ok none, rfl, ?_⟩
  rw [State.respond_fbByte, State.fbByte_pack]
  decide

/-- OwnershipChangesHands, both ways: FB_ALLOC, and FB_DISCARD. -/
theorem witness_ownership :
    (∃ t, step (asking tc .ready false [0x5000000000000000]) = .next t ∧ t.fbOwned = true) ∧
      ∃ t, step (asking tc .ready true [0x6000000000000000]) = .next t ∧ t.fbOwned = false :=
  ⟨⟨_, rfl, rfl⟩, _, rfl, rfl⟩

/-- A limit of one sample, and the first sample not at the done level. -/
def tcStuck : Config := { tcLimit 0 with busyDoneLevel := (Config.busySample 0).not }

/-- OwnershipChangesHands, by a timeout. -/
theorem witness_ownership_by_timeout :
    ∃ t, step (holding tcStuck .transmitting true .writeFramebuffer) = .next t ∧ t.fbOwned = false := by
  refine ⟨_, rfl, ?_⟩
  rcases (holding tcStuck .transmitting true .writeFramebuffer).poll_cases ⟨.writeFramebuffer, 2, 0⟩
      (Config.busySample 0) with ⟨e, _⟩ | ⟨_, _, e⟩ | ⟨_, e, _⟩
  · have h : Config.busySample 0 = (Config.busySample 0).not := e
    cases hl : Config.busySample 0 <;> rw [hl] at h <;> exact absurd h (by decide)
  · exact (congrArg State.fbOwned e).trans rfl
  · exact absurd e (by decide)

/-- OwnershipChangesHands, by the done level in WRITE_FRAMEBUFFER's wait. -/
theorem witness_ownership_by_done :
    ∃ t, step (holding tcDone .transmitting true .writeFramebuffer) = .next t ∧ t.fbOwned = false := by
  refine ⟨_, rfl, ?_⟩
  rcases (holding tcDone .transmitting true .writeFramebuffer).poll_cases ⟨.writeFramebuffer, 2, 0⟩
      (Config.busySample 0) with ⟨_, e⟩ | ⟨e, _⟩ | ⟨e, _⟩
  · refine (congrArg State.fbOwned e).trans ?_
    unfold State.resume
    simp only
    rw [State.transmitTail_eq]
    rfl
  · exact absurd rfl e
  · exact absurd rfl e

/-- OnlyResultsWriteRes. -/
theorem witness_result :
    ∃ t, step (asking tc .ready false [0x10FFFFFF00000000]) = .next t ∧
      t.res ≠ (asking tc .ready false [0x10FFFFFF00000000]).res := ⟨_, rfl, by decide +kernel⟩

/-- HistoryOnlyGrows: a step that adds to the trace, the error log and the responses of a state with FAULTED set. -/
theorem witness_history :
    ∃ t, step { asking tc .ready true [0x7000000000000000] with faulted := true } = .next t ∧ t.faulted = true ∧
      t.errlog ≠ [] := ⟨_, rfl, by decide +kernel, by decide +kernel⟩

/-- StepKeepsLegal: a legal state that holds an operation, and its step. -/
theorem witness_legal :
    Legal (holding tc .refreshing false .refreshFirst) ∧
      ∃ t, step (holding tc .refreshing false .refreshFirst) = .next t := by
  refine ⟨⟨Memory.wf_nil _, ?_, ?_⟩, _, rfl⟩
  · intro h e
    cases e
    exact ⟨rfl, by decide, by intro c hc; exact absurd hc (by simp [holdColor]), rfl, by decide⟩
  · intro e; exact absurd e (by simp [holding])

/-- A state after one COORDINATE fault and one ALLOCATION_ERROR. -/
def recorded : State :=
  { asking tc .ready true [0x6000000000000000] with
    responses := [⟨.coordinate, 0, false⟩, ⟨.allocationError, 0, false⟩]
    errlog := [⟨0x30000000000000A8, .coordinate, .coordinates 168 0⟩,
      ⟨0x5000000000000000, .allocationError, .nothing⟩]
    err := .allocationError
    faulted := true }

/-- StepKeepsRecordsAgree. -/
theorem witness_records : RecordsAgree recorded ∧ ∃ t, step recorded = .next t ∧ t.err = .ok :=
  ⟨⟨by decide +kernel, by decide +kernel, by decide +kernel⟩, _, rfl, rfl⟩

/-- FeedNeverPads: the first and the last column. -/
theorem witness_feed :
    (0 < W ∧ 167 < W) ∧ feedPixel tc [0x11, 0x22, 0x33] 0 399 = .packPixel 0x33 0x22 0x11 0 399 ∧
      feedPixel { tc with mirrorX := true } [0x11, 0x22, 0x33] 167 0 = .packPixel 0x33 0x22 0x11 167 0 := by
  decide +kernel

/-- FeedPacksItsSource. -/
theorem witness_feed_packs : (at_ tc .sleeping true).fbOwned = true ∧ 167 < W ∧ 399 < H := by decide

/-- DegradedRenderIsDiscarded: a source that ends one byte short of its first row. -/
theorem witness_degraded :
    0 < H ∧ (([List.replicate 503 0xFF] : List (List Byte)).getD 0 []).length < 504 ∧
      (at_ tc .ready false).fbOwned = false ∧ (at_ tc .ready false).cfg.allocMayFail = false := by decide +kernel

/-- WholeImageIsRendered: rows of exactly 504 bytes. -/
theorem witness_whole_image (k : Nat) (hk : k < H) :
    504 ≤ ((List.replicate H (List.replicate 504 (0 : Byte))).getD k []).length := by
  generalize 504 = n
  rw [List.getD_eq_getElem?_getD, List.getElem?_replicate, if_pos hk]
  exact List.length_replicate.ge

end Sys2Proof.Machine.Tests
end

section
/-! PROOFS. Runs of packs: what a list of pack operations on the panel leaves, whichever of the three they are. -/

namespace Sys2Proof.Machine

theorem runAll_cons {i : Instr} {s u : State} (h : exec i s = .next u) (is : List Instr) :
    runAll (i :: is) s = runAll is u := by
  simp only [runAll, h]

/-- What the pack operations `is` have done, run from `s` to `t`: each pixel holds the index last packed into it, or
what it held, and is marked if one was (R128); beside these only RES, ERR and the responses moved. -/
structure PacksRun (is : List Instr) (s t : State) : Prop where
  frame : t = { s with
    fb := t.fb, fbw := t.fbw, res := t.res, resValid := t.resValid, err := t.err, responses := t.responses }
  err : t.err = if is = [] then s.err else .ok
  pixel : ∀ x y, x < W → y < H → t.fbPixel x y = (lastIndex s.cfg is x y).getD (s.fbPixel x y)
  written : ∀ x y, x < W → y < H → t.written x y = (s.written x y || (lastIndex s.cfg is x y).isSome)

theorem PacksRun.nil (s : State) : PacksRun [] s s where
  frame := rfl
  err := rfl
  pixel _ _ _ _ := rfl
  written _ _ _ _ := (Bool.or_false _).symm

section
variable {is : List Instr} {s t : State} (h : PacksRun is s t)
include h

theorem PacksRun.cfg : t.cfg = s.cfg := by rw [h.frame]
theorem PacksRun.fbOwned : t.fbOwned = s.fbOwned := by rw [h.frame]
theorem PacksRun.trace : t.trace = s.trace := by rw [h.frame]
theorem PacksRun.errlog : t.errlog = s.errlog := by rw [h.frame]
theorem PacksRun.faulted : t.faulted = s.faulted := by rw [h.frame]

/-- One more pack after a run of packs. -/
theorem PacksRun.snoc {i : Instr} {idx : BitVec 2} {x y : Coord} {r : BitVec 2} {v : Bool} {a : Response}
    (ht : packTarget s.cfg i = some (idx, x, y)) (hx : x.toNat < W) :
    PacksRun (is ++ [i]) s { t.pack x.toNat y.toNat idx with
      res := r, resValid := v, err := .ok, responses := t.responses ++ [a] } where
  frame := by rw [h.frame]; rfl
  err := by simp
  pixel x' y' hx' hy' := by
    have hp := t.fbPixel_pack (y := y.toNat) (y' := y') idx hx hx'
    rw [lastIndex_append ht]
    refine Eq.trans hp ?_
    by_cases e : x' = x.toNat ∧ y' = y.toNat
    · rw [if_pos e, if_pos ⟨e.1.symm, e.2.symm⟩, Option.getD_some]
    · rw [if_neg e, if_neg fun e' => e ⟨e'.1.symm, e'.2.symm⟩, h.pixel x' y' hx' hy']
  written x' y' hx' hy' := by
    have hw := t.fbw_pack x.toNat y.toNat idx (pixelNumber_lt hx' hy')
    rw [lastIndex_append ht]
    refine Eq.trans hw ?_
    change (t.written x' y' || _) = _
    rw [h.written x' y' hx' hy']
    by_cases e : x.toNat = x' ∧ y.toNat = y'
    · simp [← e.1, ← e.2]
    · have hne : pixelNumber x' y' ≠ pixelNumber x.toNat y.toNat := fun n =>
        e ((pixelNumber_inj hx' hx n).imp Eq.symm Eq.symm)
      simp [e, hne]

end

/-- Pack operations on the panel run to their end on an owned framebuffer (R120, R128). -/
theorem runAll_packs {s : State} {is : List Instr} (ho : s.fbOwned = true) (hp : PacksOnPanel s.cfg is) :
    ∃ t, runAll is s = some t ∧ PacksRun is s t := by
  induction is using List.reverseRecOn with
  | nil => exact ⟨s, rfl, .nil s⟩
  | append_singleton is i ih =>
    obtain ⟨t, hrun, h⟩ := ih fun j hj => hp j (List.mem_append_left _ hj)
    obtain ⟨idx, x, y, ht, hx, hy⟩ := hp i (by simp)
    obtain ⟨r, v, a, he, -⟩ := exec_packTarget (h.cfg ▸ ht) (h.fbOwned.trans ho) hx hy
    refine ⟨_, ?_, h.snoc (r := r) (v := v) (a := a) ht hx⟩
    rw [runAll_append, hrun, Option.bind_some]
    exact runAll_cons he []

/-- `FBW` is all ones where every pixel of the panel is marked: the bit numbers are the pixels' (R33). -/
theorem fbw_eq_allOnes {t : State} (h : ∀ x y, x < W → y < H → t.written x y = true) : t.fbw = BitVec.allOnes NPIX := by
  refine BitVec.eq_of_getLsbD_eq fun p hp => ?_
  have hx : p % W < W := Nat.mod_lt _ (by decide)
  have hy : p / W < H := Nat.div_lt_of_lt_mul hp
  have e : pixelNumber (p % W) (p / W) = p := Nat.mod_add_div' p W
  have hw : t.fbw.getLsbD (pixelNumber (p % W) (p / W)) = true := h _ _ hx hy
  rw [e] at hw
  rw [hw, BitVec.getLsbD_allOnes, decide_eq_true hp]

end Sys2Proof.Machine
end

section
/-! PROOFS. What the operations outside the packer's three packs do where their checks pass, and the blank/clear cycle up
to its first wait. -/

namespace Sys2Proof.Machine

/-- FB_ALLOC where the allocation cannot fail, or its draw is true (R122, R123). -/
theorem exec_fbAlloc_of_allocates {s : State} (ho : s.fbOwned = false)
    (hd : s.cfg.allocMayFail = false ∨ Config.allocDraw s.allocDraws = true) :
    exec .fbAlloc s = .next { s with
      fb := [], fbGen := s.fbGen + 1, fbw := 0#NPIX, fbOwned := true, allocDraws := s.allocDraws + 1, err := .ok
      responses := s.responses ++ [{ status := .ok, result := 0#2, resultValid := false }] } := by
  have hok : s.allocOk = true := by simpa [State.allocOk] using hd
  simp only [exec, execFbAlloc, ho, hok, Bool.false_eq_true, if_false, State.guarded_none]
  rfl

theorem exec_fbDiscard_of_owned {s : State} (ho : s.fbOwned = true) :
    exec .fbDiscard s = .next { s with
      fbOwned := false, err := .ok
      responses := s.responses ++ [{ status := .ok, result := 0#2, resultValid := false }] } := by
  simp only [exec, execFbDiscard, ho]
  rfl

theorem exec_resetPanel (s : State) :
    exec .resetPanel s = .next ((s.resetPulse.setDState .awaitingReset).respond .ok none) := by rfl

theorem exec_initializePanel_of_awaitingReset {s : State} (hs : s.dstate = .awaitingReset) :
    exec .initializePanel s = .next (((s.sendEntries s.cfg.initSeq).setDState .ready).respond .ok none) := by
  simp [exec, execInitializePanel, stateFailure, legalIn, Instr.operation, hs]

theorem exec_clearPanel_of_ready {s : State} (hs : s.dstate = .ready) (c : Byte) :
    exec (.clearPanel c) s = .next ((({ s.fillFb c with fbw := BitVec.allOnes NPIX, fbOwned := true } : State).setDState
      .transmitting).transmitHead.holdAt (.clearFirst c) 0 s) := by
  simp [exec, execClearPanel, stateFailure, legalIn, Instr.operation, hs]

/-- The blank/clear cycle reaches CLEAR's first wait from every state, with the events of RESET, INITIALIZE and the start
of the transmission, the colour everywhere, and nothing recorded (R86, R161, R163, R171). -/
theorem runAll_clearCycle (s : State) (c : Byte) :
    ∃ t, runAll (clearCycleRequests c) s = some t ∧
      t.trace = s.trace ++ resetEvents ++ s.cfg.initSeq.flatMap entryEvents ++ entryEvents s.cfg.startTx ∧
      (∀ a, a < NFB → t.fbByte a = c) ∧ t.dstate = .transmitting ∧
      t.inflight.map (·.point) = some (.clearFirst c) ∧
      t.err = .ok ∧ t.errlog = s.errlog ∧ t.faulted = s.faulted := by
  have hreset := exec_resetPanel s
  generalize hu : (s.resetPulse.setDState .awaitingReset).respond .ok none = u at hreset
  have hinit := exec_initializePanel_of_awaitingReset (s := u) (by rw [← hu]; rfl)
  generalize hv : ((u.sendEntries u.cfg.initSeq).setDState .ready).respond .ok none = v at hinit
  have hclear := exec_clearPanel_of_ready (s := v) (by rw [← hv]; rfl) c
  refine ⟨_, ((runAll_cons hreset _).trans (runAll_cons hinit _)).trans (runAll_cons hclear []), ?_, fun a ha => ?_, ?_⟩
  · simp [← hv, ← hu]
  · rw [State.holdAt_fbByte, State.transmitHead_fbByte, State.setDState_fbByte]
    exact (v.fbByte_fillFb c a).trans (if_pos ha)
  · simp [← hv, ← hu]

end Sys2Proof.Machine
end

section
/-! PROOFS. The feed (R8): every request it gives, the pixel it packs, and what it records. -/

namespace Sys2Proof.Machine

/-- The source pixel of panel column `x` in a row of source bytes (R8(c), R8(d)). -/
def sourcePixel (c : Config) (row : List Byte) (x : Nat) : Rgb :=
  let col := sourceColumn c.mirrorX x
  channels c.srcPixelOrder (row.getD (3 * col) 0) (row.getD (3 * col + 1) 0) (row.getD (3 * col + 2) 0)

theorem sourceColumn_lt (m : Bool) {x : Nat} (hx : x < W) : sourceColumn m x < W := by
  unfold sourceColumn; split <;> omega

/-- A column of the panel is no padding: the source has three bytes for each (R8(e)). -/
theorem feedPixel_eq (c : Config) (row : List Byte) {x : Nat} (y : Nat) (hx : x < W) :
    feedPixel c row x y = .packPixel (sourcePixel c row x).r (sourcePixel c row x).g (sourcePixel c row x).b
      (BitVec.ofNat 16 x) (BitVec.ofNat 16 y) := by
  have hcol := sourceColumn_lt c.mirrorX hx
  exact if_neg (by omega)

theorem mem_feedImage_requests {c : Config} {rows : List (List Byte)} {i : Instr} :
    i ∈ (feedImage c rows).requests ↔ ∃ k < H, ∃ x < W, feedPixel c (rows.getD k []) x (panelRow k) = i := by
  simp only [feedImage, feedRow, List.mem_flatMap, List.mem_map, List.mem_range]

theorem column_toNat {x : Nat} (hx : x < W) : (BitVec.ofNat 16 x).toNat = x :=
  Nat.mod_eq_of_lt (hx.trans (by decide))

theorem row_toNat {y : Nat} (hy : y < H) : (BitVec.ofNat 16 y).toNat = y :=
  Nat.mod_eq_of_lt (hy.trans (by decide))

theorem panelRow_lt (k : Nat) : panelRow k < H := by simp only [panelRow, H]; omega

theorem panelRow_eq_iff {k y : Nat} (hk : k < H) (hy : y < H) : panelRow k = y ↔ k = 399 - y := by
  simp only [panelRow, H] at *; omega

/-- The feed packs, at each panel pixel, the quantizer's index of the source pixel there (R8, R125). -/
theorem packTarget_feedPixel (c : Config) (row : List Byte) {x y : Nat} (hx : x < W) (hy : y < H) :
    packTarget c (feedPixel c row x y) =
      some (quantizeIndex c (sourcePixel c row x).r (sourcePixel c row x).g (sourcePixel c row x).b x y,
        BitVec.ofNat 16 x, BitVec.ofNat 16 y) := by
  rw [feedPixel_eq c row y hx]
  simp only [packTarget]
  rw [column_toNat hx, row_toNat hy]

theorem feed_packsOnPanel (c : Config) (rows : List (List Byte)) : PacksOnPanel c (feedImage c rows).requests := by
  intro i hi
  obtain ⟨k, -, x, hx, rfl⟩ := mem_feedImage_requests.mp hi
  have hy := panelRow_lt k
  exact ⟨_, _, _, packTarget_feedPixel c _ hx hy, (column_toNat hx).trans_lt hx, (row_toNat hy).trans_lt hy⟩

/-- The index the feed leaves at a pixel: that of its source pixel, in the row read as number `H-1-y` (R8(a)). -/
theorem lastIndex_feed (c : Config) (rows : List (List Byte)) {x y : Nat} (hx : x < W) (hy : y < H) :
    lastIndex c (feedImage c rows).requests x y =
      some (let p := sourcePixel c (rows.getD (399 - y) []) x
        quantizeIndex c p.r p.g p.b x y) := by
  apply lastIndex_eq_some
  · intro i hi idx px py ht hpx hpy
    obtain ⟨k, hk, x', hx', rfl⟩ := mem_feedImage_requests.mp hi
    have hy' := panelRow_lt k
    rw [packTarget_feedPixel c _ hx' hy', Option.some.injEq, Prod.mk.injEq, Prod.mk.injEq] at ht
    obtain ⟨rfl, rfl, rfl⟩ := ht
    rw [column_toNat hx'] at hpx
    rw [row_toNat hy'] at hpy
    rw [hpx, hpy, (panelRow_eq_iff hk hy).mp hpy]
  · have hk : 399 - y < H := by simp only [H]; omega
    have hrow : panelRow (399 - y) = y := (panelRow_eq_iff hk hy).mpr rfl
    exact ⟨_, mem_feedImage_requests.mpr ⟨_, hk, x, hx, rfl⟩, _, _, _,
      packTarget_feedPixel c _ hx (panelRow_lt _), column_toNat hx, (row_toNat (panelRow_lt _)).trans hrow⟩

/-- The feed on an owned framebuffer: it completes, and every pixel is its source's index and marked (R8, R234). -/
theorem runAll_feed (s : State) (rows : List (List Byte)) (ho : s.fbOwned = true) :
    ∃ t, runAll (feedImage s.cfg rows).requests s = some t ∧ PacksRun (feedImage s.cfg rows).requests s t ∧
      t.fbw = BitVec.allOnes NPIX := by
  obtain ⟨t, hrun, h⟩ := runAll_packs ho (feed_packsOnPanel s.cfg rows)
  refine ⟨t, hrun, h, fbw_eq_allOnes fun x y hx hy => ?_⟩
  rw [h.written x y hx hy, lastIndex_feed s.cfg rows hx hy, Option.isSome_some, Bool.or_true]

theorem mem_truncations {rows : List (List Byte)} {k : Nat} :
    .truncatedStream k ∈ truncations rows ↔ k < H ∧ (rows.getD k []).length < 504 := by
  simp [truncations, rowTruncated, W]

theorem format_notMem_truncations (rows : List (List Byte)) : .format ∉ truncations rows := by
  simp [truncations]

/-- Rows that are all whole leave no error (R8(f)). -/
theorem errors_of_whole_rows (c : Config) {rows : List (List Byte)}
    (h : ∀ k, k < H → 504 ≤ (rows.getD k []).length) : (feedImage c rows).errors = [] := by
  refine List.map_eq_nil_iff.mpr (List.filter_eq_nil_iff.mpr fun k hk => ?_)
  have hlen := h k (List.mem_range.mp hk)
  simpa [rowTruncated, W] using hlen

theorem degraded_of_truncated {f : Fed} {k : Nat} (h : .truncatedStream k ∈ f.errors) : f.degraded = true :=
  List.any_eq_true.mpr ⟨_, h, rfl⟩

/-- What the host presents for an image whose header was not refused (R8(f), R10, R234). -/
theorem imageRequests_feedImage (c : Config) (color : Byte) (rows : List (List Byte)) :
    imageRequests color (feedImage c rows) = .fbAlloc :: ((feedImage c rows).requests ++
      if (feedImage c rows).degraded then degradedRequests color else renderRequests) :=
  if_neg (format_notMem_truncations rows)

/-- FB_ALLOC and the feed, where the allocation succeeds: every pixel is written, on no bus, and nothing is recorded. -/
theorem runAll_fbAlloc_feed {s : State} (rows : List (List Byte)) (ho : s.fbOwned = false)
    (hd : s.cfg.allocMayFail = false ∨ Config.allocDraw s.allocDraws = true) :
    ∃ p, runAll (.fbAlloc :: (feedImage s.cfg rows).requests) s = some p ∧ p.fbOwned = true ∧
      p.fbw = BitVec.allOnes NPIX ∧ p.err = .ok ∧ p.cfg = s.cfg ∧ p.trace = s.trace ∧ p.errlog = s.errlog ∧
      p.faulted = s.faulted := by
  have halloc := exec_fbAlloc_of_allocates ho hd
  generalize hu : ({ s with
    fb := [], fbGen := s.fbGen + 1, fbw := 0#NPIX, fbOwned := true, allocDraws := s.allocDraws + 1, err := .ok
    responses := s.responses ++ [⟨.ok, 0#2, false⟩] } : State) = u at halloc
  have hcfg : u.cfg = s.cfg := by rw [← hu]
  obtain ⟨p, hrun, h, hw⟩ := runAll_feed u rows (by rw [← hu])
  rw [hcfg] at hrun h
  have herr : u.err = .ok := by rw [← hu]
  refine ⟨p, (runAll_cons halloc _).trans hrun, ?_, hw, ?_, ?_, ?_, ?_, ?_⟩
  · rw [h.fbOwned, ← hu]
  · rw [h.err, herr, ite_self]
  · rw [h.cfg, hcfg]
  · rw [h.trace, ← hu]
  · rw [h.errlog, ← hu]
  · rw [h.faulted, ← hu]

theorem writeFramebuffer_notMem_degraded (c : Config) (color : Byte) (rows : List (List Byte)) :
    .writeFramebuffer ∉ .fbAlloc :: ((feedImage c rows).requests ++ degradedRequests color) := by
  have hfeed : .writeFramebuffer ∉ (feedImage c rows).requests := fun hm => by
    obtain ⟨idx, x, y, ht, -⟩ := feed_packsOnPanel c rows _ hm
    exact absurd ht (by simp [packTarget])
  simp [hfeed, degradedRequests, clearCycleRequests]

end Sys2Proof.Machine
end

section
/-! PROOFS. The obligations about the feed and the host's sequences. -/

open Sys2Proof Sys2Proof.Machine

/-- Settles O45: no column's source bytes reach beyond the row's 504. -/
theorem feedNeverPads : Obligations.FeedNeverPads :=
  fun c row _ y hx => ⟨_, _, _, feedPixel_eq c row y hx⟩

/-- Settles O46: the feed is a run of packs on the panel, and the last one into a pixel is of its source pixel. -/
theorem feedPacksItsSource : Obligations.FeedPacksItsSource := by
  intro s rows ho
  obtain ⟨t, hrun, h, hw⟩ := runAll_feed s rows ho
  refine ⟨t, hrun, h.fbOwned.trans ho, hw, fun x y hx hy => ?_⟩
  rw [h.pixel x y hx hy, lastIndex_feed s.cfg rows hx hy]
  rfl

/-- Settles O48: with no short row the feed records nothing, so that the host renders. -/
theorem wholeImageIsRendered : Obligations.WholeImageIsRendered := by
  intro c color rows hwhole
  have herrors : (feedImage c rows).errors = [] := errors_of_whole_rows c hwhole
  refine ⟨herrors, ?_⟩
  rw [imageRequests_feedImage, Fed.degraded, herrors]
  rfl

/-- Settles O47: the run is FB_ALLOC and the feed, then FB_DISCARD, then the blank/clear cycle. -/
theorem degradedRenderIsDiscarded : Obligations.DegradedRenderIsDiscarded := by
  intro s color rows k hk hshort ho hd
  have herror : .truncatedStream k ∈ (feedImage s.cfg rows).errors := mem_truncations.mpr ⟨hk, hshort⟩
  have hdegraded := degraded_of_truncated herror
  have hreq : imageRequests color (feedImage s.cfg rows) =
      .fbAlloc :: ((feedImage s.cfg rows).requests ++ degradedRequests color) := by
    rw [imageRequests_feedImage, if_pos hdegraded]
  obtain ⟨p, hp, hpOwned, hpw, hpErr, hpCfg, hpTrace, hpLog, hpFaulted⟩ := runAll_fbAlloc_feed rows ho hd
  have hdiscard := exec_fbDiscard_of_owned hpOwned
  generalize hu : ({ p with
    fbOwned := false, err := .ok, responses := p.responses ++ [⟨.ok, 0#2, false⟩] } : State) = d at hdiscard
  obtain ⟨t, ht, htTrace, htBytes, htState, htPoint, htErr, htLog, htFaulted⟩ := runAll_clearCycle d color
  refine ⟨herror, hdegraded, hreq, hreq ▸ writeFramebuffer_notMem_degraded s.cfg color rows, p, d, t,
    hp, hpOwned, hpw, hpTrace, hpErr, hdiscard, ?_, ?_, ?_, ?_, ?_, htBytes, htState, htPoint, htErr, ?_, ?_⟩
  · rw [← hu]
  · rw [← hu, ← hpTrace]
  · rw [← hu]
  · rw [hreq, ← List.cons_append, runAll_append, hp, Option.bind_some, degradedRequests]
    exact (runAll_cons hdiscard _).trans ht
  · rw [htTrace, ← hu, ← hpTrace, ← hpCfg]
  · rw [htLog, ← hu, ← hpLog]
  · rw [htFaulted, ← hu, ← hpFaulted]
end

section
/-! PROOFS. The outcomes of an operation by name, and what one BUSY sample leaves unchanged. -/

namespace Sys2Proof.Machine

/-- What an operation run from `s` leaves, one constructor for each way it ends or is held: the disjuncts of
`exec_cases` under names, FB_ALLOC's draw decided. -/
inductive ExecOutcome (s : State) : Instr → State → Prop
  | refused (i : Instr) (st : Status) (info : ErrInfo) (fault : st.isFault = true) :
    ExecOutcome s i (s.raise (encode i) st info)
  | quantized (r g b : Byte) (x y : Coord) (idx : BitVec 2) (index : idx = quantizeIndex s.cfg r g b x.toNat y.toNat) :
    ExecOutcome s (.quantize r g b x y) ((s.setRes idx).respond .ok (some idx))
  | packedPixel (r g b : Byte) (x y : Coord) (idx : BitVec 2)
    (index : idx = quantizeIndex s.cfg r g b x.toNat y.toNat)
    (owned : s.fbOwned = true) (hx : x.toNat < W) (hy : y.toNat < H) :
    ExecOutcome s (.packPixel r g b x y) (((s.pack x.toNat y.toNat idx).setRes idx).respond .ok (some idx))
  | packedIndex (idx : BitVec 2) (x y : Coord) (owned : s.fbOwned = true) (hx : x.toNat < W) (hy : y.toNat < H) :
    ExecOutcome s (.packIndex idx x y) ((s.pack x.toNat y.toNat idx).respond .ok none)
  | packedPad (x y : Coord) (owned : s.fbOwned = true) (hx : x.toNat < W) (hy : y.toNat < H) :
    ExecOutcome s (.packPad x y) ((s.pack x.toNat y.toNat 1).respond .ok none)
  | allocated (free : s.fbOwned = false) :
    ExecOutcome s .fbAlloc
      (({ s.drawFb with allocDraws := s.allocDraws + 1, fbw := 0#NPIX, fbOwned := true } : State).respond .ok none)
  | notAllocated (free : s.fbOwned = false) :
    ExecOutcome s .fbAlloc
      (({ s with allocDraws := s.allocDraws + 1 } : State).raise (encode .fbAlloc) .allocationError .nothing)
  | discarded (owned : s.fbOwned = true) :
    ExecOutcome s .fbDiscard (({ s with fbOwned := false } : State).respond .ok none)
  | pulsed : ExecOutcome s .resetPanel ((s.resetPulse.setDState .awaitingReset).respond .ok none)
  | initialized (state : s.dstate = .awaitingReset) :
    ExecOutcome s .initializePanel (((s.sendEntries s.cfg.initSeq).setDState .ready).respond .ok none)
  | transmitting (state : s.dstate = .ready) (owned : s.fbOwned = true) :
    ExecOutcome s .writeFramebuffer ((s.setDState .transmitting).transmitHead.holdAt .writeFramebuffer 0 s)
  | refreshing (state : s.dstate = .transmitting) :
    ExecOutcome s .refreshPanel
      (((s.setDState .refreshing).sendEntry (refreshEntry s.cfg)).holdAt .refreshFirst 0 s)
  | slept (state : s.dstate = .ready) :
    ExecOutcome s .sleepPanel
      (((((s.sendEntry (powerOffEntry s.cfg)).sendEntry s.cfg.deepSleep).delay sleepSettleMs).setDState
        .sleeping).respond .ok none)
  | clearing (c : Byte) (state : s.dstate = .ready) :
    ExecOutcome s (.clearPanel c)
      ((({ s.fillFb c with fbw := BitVec.allOnes NPIX, fbOwned := true } : State).setDState
        .transmitting).transmitHead.holdAt (.clearFirst c) 0 s)

/-- Every answer of `exec` is one of the named outcomes. -/
theorem execOutcome_of_exec {s t : State} {i : Instr} (h : exec i s = .next t) : ExecOutcome s i t := by
  rcases exec_cases h with ⟨st, info, hf, rfl⟩ | ⟨r, g, b, x, y, idx, rfl, hidx, rfl⟩ |
    ⟨r, g, b, x, y, idx, rfl, hidx, ho, ⟨hx, hy⟩, rfl⟩ | ⟨idx, x, y, hi, ho, ⟨hx, hy⟩, rfl⟩ | ⟨rfl, ho, rfl⟩ |
    ⟨rfl, ho, rfl⟩ | ⟨rfl, rfl⟩ | ⟨rfl, hs, rfl⟩ | ⟨rfl, hs, ho, rfl⟩ | ⟨rfl, hs, rfl⟩ | ⟨rfl, hs, rfl⟩ |
    ⟨c, rfl, hs, rfl⟩
  · exact .refused i st info hf
  · exact .quantized r g b x y idx hidx
  · exact .packedPixel r g b x y idx hidx ho hx hy
  · rcases hi with rfl | ⟨rfl, rfl⟩
    · exact .packedIndex idx x y ho hx hy
    · exact .packedPad x y ho hx hy
  · cases s.allocOk
    · exact .notAllocated ho
    · exact .allocated ho
  · exact .discarded ho
  · exact .pulsed
  · exact .initialized hs
  · exact .transmitting hs ho
  · exact .refreshing hs
  · exact .slept hs
  · exact .clearing c hs

/-- The word presented to a block that holds nothing asks for `i` (R77). -/
structure Presented (s : State) (i : Instr) : Prop where
  unheld : s.inflight = none
  word : ∃ q rest, s.requests = q :: rest ∧ decode q = .ok i

/-- What a step can do: sample BUSY for the held operation, wait, refuse a word, or run the presented operation. -/
inductive StepOutcome (s : State) : State → Prop
  | sampled (p : Inflight) (held : s.inflight = some p) :
    StepOutcome s (s.poll p (Config.busySample s.busySamples))
  | idle (unheld : s.inflight = none) (noRequest : s.requests = []) : StepOutcome s s
  | illegal (q : RequestWord) (rest : List RequestWord) (e : DecodeError) (unheld : s.inflight = none)
    (word : s.requests = q :: rest) (refused : decode q = .error e) : StepOutcome s (s.accept.raiseIllegal q)
  | ran {t : State} (i : Instr) (presented : Presented s i) (outcome : ExecOutcome s.accept i t) : StepOutcome s t

theorem stepOutcome_of_step {s t : State} (h : step s = .next t) : StepOutcome s t := by
  rcases step_cases h with ⟨p, hp, rfl⟩ | ⟨hn, hr, rfl⟩ | ⟨q, rest, e, hn, hr, hd, rfl⟩ | ⟨q, rest, i, hn, hr, hd, he⟩
  · exact .sampled p hp
  · exact .idle hn hr
  · exact .illegal q rest e hn hr hd
  · exact .ran i ⟨hn, q, rest, hr, hd⟩ (execOutcome_of_exec he)

/-! ### The frame of a BUSY sample -/

section
variable (s : State) (h : Inflight) (l : Level)

/-- A sample never writes RES, RES_VALID, FB, FBW, RST, the tables, the requests, or the counters of the draws. -/
theorem State.poll_frame :
    s.poll h l = { s with
      dstate := (s.poll h l).dstate, fbOwned := (s.poll h l).fbOwned, err := (s.poll h l).err
      inflight := (s.poll h l).inflight, dc := (s.poll h l).dc, cs := (s.poll h l).cs
      trace := (s.poll h l).trace, errlog := (s.poll h l).errlog, faulted := (s.poll h l).faulted
      responses := (s.poll h l).responses, busySamples := s.busySamples + 1 } := by
  rcases s.poll_cases h l with ⟨_, e⟩ | ⟨_, _, e⟩ | ⟨_, _, e⟩
  · rw [e]
    rcases State.resume_cases _ h s with ⟨_, e⟩ | ⟨_, _, _, _, e⟩ | ⟨_, _, _, _, e⟩ | ⟨_, e⟩ <;> rw [e]
  · rw [e, State.timeout_eq]
  · rw [e]

@[simp] theorem State.poll_res : (s.poll h l).res = s.res := by rw [State.poll_frame]
@[simp] theorem State.poll_resValid : (s.poll h l).resValid = s.resValid := by rw [State.poll_frame]
@[simp] theorem State.poll_fb : (s.poll h l).fb = s.fb := by rw [State.poll_frame]
@[simp] theorem State.poll_fbGen : (s.poll h l).fbGen = s.fbGen := by rw [State.poll_frame]
@[simp] theorem State.poll_fbw : (s.poll h l).fbw = s.fbw := by rw [State.poll_frame]
@[simp] theorem State.poll_cfg : (s.poll h l).cfg = s.cfg := by rw [State.poll_frame]
@[simp] theorem State.poll_requests : (s.poll h l).requests = s.requests := by rw [State.poll_frame]
@[simp] theorem State.poll_allocDraws : (s.poll h l).allocDraws = s.allocDraws := by rw [State.poll_frame]
@[simp] theorem State.poll_busySamples : (s.poll h l).busySamples = s.busySamples + 1 := by rw [State.poll_frame]
@[simp] theorem State.poll_fbDrawn : (s.poll h l).fbDrawn = s.fbDrawn := by rw [State.fbDrawn, State.poll_fbGen]; rfl
@[simp] theorem State.poll_fbByte : (s.poll h l).fbByte = s.fbByte := by
  funext a
  rw [State.fbByte, State.poll_fbDrawn, State.poll_fb]
  rfl

end

end Sys2Proof.Machine
end

section
/-! PROOFS. Which operations write the framebuffer, FB_OWNED, RES and the history, outcome by outcome. -/

namespace Sys2Proof.Machine

/-! ### The framebuffer's bytes -/

/-- `i` is a pack operation for pixel `(x, y)` (R124 to R126). -/
def PacksPixel (i : Instr) (x y : Coord) : Prop :=
  (∃ idx, i = .packIndex idx x y) ∨ (∃ r g b, i = .packPixel r g b x y) ∨ i = .packPad x y

/-- A byte that a pack changes is its pixel's. -/
theorem State.pack_address {s : State} {x y : Nat} {idx : BitVec 2} {a : Nat}
    (h : (s.pack x y idx).fbByte a ≠ s.fbByte a) : a = byteOffset x y := by
  by_contra hne
  exact h (by rw [State.fbByte_pack, if_neg hne])

/-- An operation that changes a byte is FB_ALLOC, CLEAR, or a pack on an owned framebuffer whose pixel is in that byte
(R27, R120). -/
theorem ExecOutcome.writes_framebuffer {s t : State} {i : Instr} (h : ExecOutcome s i t) {a : Nat}
    (hne : t.fbByte a ≠ s.fbByte a) :
    i = .fbAlloc ∨ (∃ c, i = .clearPanel c) ∨
      ∃ x y : Coord, a = byteOffset x.toNat y.toNat ∧ x.toNat < W ∧ y.toNat < H ∧ s.fbOwned = true ∧
        PacksPixel i x y := by
  cases h with
  | packedPixel r g b x y idx _ ho hx hy =>
    rw [State.respond_fbByte, State.setRes_fbByte] at hne
    exact .inr (.inr ⟨x, y, State.pack_address hne, hx, hy, ho, .inr (.inl ⟨r, g, b, rfl⟩)⟩)
  | packedIndex idx x y ho hx hy =>
    rw [State.respond_fbByte] at hne
    exact .inr (.inr ⟨x, y, State.pack_address hne, hx, hy, ho, .inl ⟨idx, rfl⟩⟩)
  | packedPad x y ho hx hy =>
    rw [State.respond_fbByte] at hne
    exact .inr (.inr ⟨x, y, State.pack_address hne, hx, hy, ho, .inr (.inr rfl)⟩)
  | allocated => exact .inl rfl
  | notAllocated => exact .inl rfl
  | clearing c => exact .inr (.inl ⟨c, rfl⟩)
  | discarded => exact absurd (by rw [State.respond_fbByte]; rfl) hne
  | _ => exact absurd (by simp) hne

/-! ### Ownership -/

/-- An operation that sets FB_OWNED is FB_ALLOC or CLEAR (R24). -/
theorem ExecOutcome.takes_ownership {s t : State} {i : Instr} (h : ExecOutcome s i t) (hs : s.fbOwned = false)
    (ht : t.fbOwned = true) : i = .fbAlloc ∨ ∃ c, i = .clearPanel c := by
  cases h with
  | allocated => exact .inl rfl
  | notAllocated => exact .inl rfl
  | clearing c => exact .inr ⟨c, rfl⟩
  | _ => simp [hs] at ht

/-- An operation that clears FB_OWNED before its first wait is FB_DISCARD (R24). -/
theorem ExecOutcome.releases_ownership {s t : State} {i : Instr} (h : ExecOutcome s i t) (hs : s.fbOwned = true)
    (ht : t.fbOwned = false) : i = .fbDiscard := by
  cases h with
  | discarded => rfl
  | _ => simp [hs] at ht

/-- A sample never makes a framebuffer alive (R24, R166, R206). -/
theorem State.poll_fbOwned_false {s : State} (hs : s.fbOwned = false) (h : Inflight) (l : Level) :
    (s.poll h l).fbOwned = false := by
  rcases s.poll_cases h l with ⟨_, e⟩ | ⟨_, _, e⟩ | ⟨_, _, e⟩ <;> rw [e]
  · rcases State.resume_cases _ h s with ⟨_, e⟩ | ⟨_, _, _, _, e⟩ | ⟨_, _, _, _, e⟩ | ⟨_, e⟩ <;> rw [e]
    · exact hs
    · exact hs
  · simp [hs]
  · exact hs

/-- A timeout that releases the framebuffer is not REFRESH's (R206). -/
theorem not_refresh_of_timeoutReleases {p : HoldPoint} (h : timeoutReleases p.instr.operation = true) :
    p ≠ .refreshFirst ∧ p ≠ .refreshSecond := by
  constructor <;> rintro rfl <;> exact absurd h (by decide)

/-- A sample that ends the framebuffer's life: the done level in the wait before a transmission, or a timeout of
WRITE_FRAMEBUFFER or CLEAR (R166, R206). -/
theorem State.poll_releases_ownership {s : State} {h : Inflight} {l : Level} (hs : s.fbOwned = true)
    (ht : (s.poll h l).fbOwned = false) :
    (l = s.cfg.busyDoneLevel ∧ (h.point = .writeFramebuffer ∨ ∃ c, h.point = .clearFirst c)) ∨
    (l ≠ s.cfg.busyDoneLevel ∧ PollLimit.reached s.cfg.busyTimeout (h.polls + 1) = true ∧
      (s.poll h l).err = .deviceTimeout ∧ h.point ≠ .refreshFirst ∧ h.point ≠ .refreshSecond) := by
  rcases s.poll_cases h l with ⟨hl, e⟩ | ⟨hl, hr, e⟩ | ⟨_, _, e⟩ <;> rw [e] at ht ⊢
  · refine .inl ⟨hl, ?_⟩
    rcases State.resume_cases _ h s with ⟨hp, _⟩ | ⟨_, _, _, _, e⟩ | ⟨c, _, hp, _⟩ | ⟨_, e⟩
    · exact .inl hp
    · rw [e] at ht; simp [hs] at ht
    · exact .inr ⟨c, hp⟩
    · rw [e] at ht; simp [hs] at ht
  · refine .inr ⟨hl, hr, rfl, not_refresh_of_timeoutReleases ?_⟩
    simpa [hs] using ht
  · simp [hs] at ht

/-! ### RES -/

/-- An operation that writes RES or RES_VALID is QUANTIZE or PACK_PIXEL, and it ended with OK (R25). -/
theorem ExecOutcome.writes_res {s t : State} {i : Instr} (h : ExecOutcome s i t)
    (hne : t.res ≠ s.res ∨ t.resValid ≠ s.resValid) :
    t.err = .ok ∧ t.resValid = true ∧
      ∃ r g b x y, i = .quantize r g b x y ∨ i = .packPixel r g b x y := by
  cases h with
  | quantized r g b x y => exact ⟨rfl, rfl, r, g, b, x, y, .inl rfl⟩
  | packedPixel r g b x y => exact ⟨rfl, rfl, r, g, b, x, y, .inr rfl⟩
  | _ => simp at hne

/-! ### The history -/

/-- What no step takes back beside the records: the tables stay, TRACE is only appended to, and the counters of the free
values never go back (R28, R33, R140, R233). -/
structure Continues (s t : State) : Prop where
  cfg : t.cfg = s.cfg
  trace : s.trace <+: t.trace
  busySamples : s.busySamples ≤ t.busySamples
  allocDraws : s.allocDraws ≤ t.allocDraws
  fbGen : s.fbGen ≤ t.fbGen

theorem Continues.refl (s : State) : Continues s s := ⟨rfl, List.prefix_rfl, le_rfl, le_rfl, le_rfl⟩

/-- An operation continues the history: a refusal, QUANTIZE, a pack and FB_DISCARD leave it, FB_ALLOC draws, and a
driver operation appends its events. -/
theorem ExecOutcome.continues {s t : State} {i : Instr} (h : ExecOutcome s i t) : Continues s t := by
  cases h with
  | refused | quantized | packedPixel | packedIndex | packedPad | discarded =>
    exact ⟨rfl, List.prefix_rfl, le_rfl, le_rfl, le_rfl⟩
  | allocated => exact ⟨rfl, List.prefix_rfl, le_rfl, Nat.le_succ _, Nat.le_succ _⟩
  | notAllocated => exact ⟨rfl, List.prefix_rfl, le_rfl, Nat.le_succ _, le_rfl⟩
  | pulsed | initialized | transmitting | refreshing | slept | clearing => constructor <;> simp

/-- A sample's event is appended before anything else (R140, R146). -/
theorem State.poll_trace_prefix (s : State) (h : Inflight) (l : Level) : s.trace <+: (s.poll h l).trace := by
  rcases s.poll_cases h l with ⟨_, e⟩ | ⟨_, _, e⟩ | ⟨_, _, e⟩ <;> rw [e]
  · rcases State.resume_cases _ h s with ⟨_, e⟩ | ⟨_, _, _, _, e⟩ | ⟨_, _, _, _, e⟩ | ⟨_, e⟩ <;> rw [e] <;> simp
  · simp
  · simp

theorem State.poll_continues (s : State) (h : Inflight) (l : Level) : Continues s (s.poll h l) :=
  ⟨by simp, s.poll_trace_prefix h l, by simp, by simp, by simp⟩

theorem StepOutcome.continues {s t : State} (h : StepOutcome s t) : Continues s t := by
  cases h with
  | sampled p => exact s.poll_continues p _
  | idle => exact .refl s
  | illegal q => constructor <;> simp [State.raiseIllegal]
  | ran i _ outcome =>
    obtain ⟨hcfg, htrace, hbusy, hdraws, hgen⟩ := outcome.continues
    exact ⟨hcfg, htrace, hbusy, hdraws, hgen⟩

end Sys2Proof.Machine
end

section
/-! PROOFS. What a step does to the responses and to the records of them. -/

namespace Sys2Proof.Machine

/-- From `s` to `t` nothing was answered and nothing recorded. -/
structure SameRecords (s t : State) : Prop where
  responses : t.responses = s.responses
  err : t.err = s.err
  errlog : t.errlog = s.errlog
  faulted : t.faulted = s.faulted

theorem SameRecords.refl (s : State) : SameRecords s s := ⟨rfl, rfl, rfl, rfl⟩

/-- From `s` to `t` the response `a` was given and recorded: ERR takes its status, and one that is not OK adds an
entry with its status to ERRLOG and, as a fault, sets FAULTED (R26, R33, R203). -/
structure Answered (s t : State) (a : Response) : Prop where
  responses : t.responses = s.responses ++ [a]
  err : t.err = a.status
  errlog : ∃ es, t.errlog = s.errlog ++ es ∧ es.map (·.status) = failures [a]
  faulted : t.faulted = faultedAfter s.faulted a.status

/-- A response with OK is recorded nowhere but in ERR. -/
theorem Answered.of_ok {s t : State} {a : Response} (ha : a.status = .ok) (responses : t.responses = s.responses ++ [a])
    (err : t.err = .ok) (errlog : t.errlog = s.errlog) (faulted : t.faulted = s.faulted) : Answered s t a where
  responses := responses
  err := err.trans ha.symm
  errlog := ⟨[], by simp [errlog], by simp [failures, ha]⟩
  faulted := by simp [faulted, ha, faultedAfter, Status.isFault, Status.code]

/-- A response that is not OK is recorded with one entry of ERRLOG (R203). -/
theorem Answered.of_failure {s t : State} {a : Response} {e : ErrEntry} (ha : a.status ≠ .ok)
    (he : e.status = a.status) (responses : t.responses = s.responses ++ [a]) (err : t.err = a.status)
    (errlog : t.errlog = s.errlog ++ [e]) (faulted : t.faulted = faultedAfter s.faulted a.status) : Answered s t a where
  responses := responses
  err := err
  errlog := ⟨[e], errlog, by simp [failures, ha, he]⟩
  faulted := faulted

/-- A step answers once, or leaves the records alone (R78). -/
def AnswersOrKeeps (s t : State) : Prop := SameRecords s t ∨ ∃ a, Answered s t a

theorem AnswersOrKeeps.of_respond_ok {s u : State} (h : SameRecords s u) (r : Option (BitVec 2)) :
    AnswersOrKeeps s (u.respond .ok r) :=
  .inr ⟨responseOf .ok r, .of_ok rfl (by rw [State.respond_responses, h.responses]) rfl h.errlog h.faulted⟩

theorem AnswersOrKeeps.of_raise {s u : State} (h : SameRecords s u) (q : RequestWord) {st : Status} (hst : st ≠ .ok)
    (info : ErrInfo) : AnswersOrKeeps s (u.raise q st info) :=
  .inr ⟨responseOf st none, .of_failure (e := ⟨q, st, info⟩) hst rfl
    (by rw [State.raise_responses, h.responses]) rfl (by rw [State.raise_errlog, h.errlog])
    (by rw [State.raise_faulted, h.faulted]; rfl)⟩

/-- A fault's status is not OK (R200). -/
theorem ne_ok_of_isFault {st : Status} (h : st.isFault = true) : st ≠ .ok := by
  rintro rfl
  exact absurd h (by decide)

theorem ExecOutcome.answersOrKeeps {s t : State} {i : Instr} (h : ExecOutcome s i t) : AnswersOrKeeps s t := by
  cases h with
  | refused _ st info fault => exact .of_raise (.refl s) _ (ne_ok_of_isFault fault) _
  | notAllocated => exact .of_raise (by constructor <;> rfl) _ (by decide) _
  | transmitting | refreshing | clearing => exact .inl (by constructor <;> simp)
  | _ => exact .of_respond_ok (by constructor <;> simp) _

/-- What follows a wait ends the operation with OK, or holds it again with nothing recorded (R165 to R171). -/
theorem State.resume_answersOrKeeps (s : State) (h : Inflight) (since : State) :
    AnswersOrKeeps s (s.resume h since) := by
  rcases s.resume_cases h since with ⟨_, e⟩ | ⟨_, _, _, _, e⟩ | ⟨_, _, _, _, e⟩ | ⟨_, e⟩ <;> rw [e]
  · exact .inr ⟨_, .of_ok rfl rfl rfl rfl rfl⟩
  · exact .inl ⟨rfl, rfl, rfl, rfl⟩
  · exact .inl ⟨rfl, rfl, rfl, rfl⟩
  · exact .inr ⟨_, .of_ok rfl rfl rfl rfl rfl⟩

theorem State.timeout_answered (s : State) (h : Inflight) :
    Answered s (s.timeout h) (responseOf .deviceTimeout none) :=
  .of_failure (by decide) rfl (State.timeout_responses s h) rfl (State.timeout_errlog s h) (State.timeout_faulted s h)

/-- What was recorded since a state with the same records was recorded since this one. -/
theorem AnswersOrKeeps.of_same {s u t : State} (hu : SameRecords s u) (h : AnswersOrKeeps u t) :
    AnswersOrKeeps s t := by
  obtain ⟨hresp, herr, hlog, hfaulted⟩ := hu
  rcases h with ⟨h1, h2, h3, h4⟩ | ⟨a, h1, h2, h3, h4⟩
  · exact .inl ⟨h1.trans hresp, h2.trans herr, h3.trans hlog, h4.trans hfaulted⟩
  · exact .inr ⟨a, hresp ▸ h1, h2, hlog ▸ h3, hfaulted ▸ h4⟩

theorem State.poll_answersOrKeeps (s : State) (h : Inflight) (l : Level) : AnswersOrKeeps s (s.poll h l) := by
  rcases s.poll_cases h l with ⟨_, e⟩ | ⟨_, _, e⟩ | ⟨_, _, e⟩ <;> rw [e]
  · refine .of_same ?_ (State.resume_answersOrKeeps _ h s)
    exact ⟨rfl, rfl, rfl, rfl⟩
  · refine .of_same ?_ (.inr ⟨_, State.timeout_answered _ h⟩)
    exact ⟨rfl, rfl, rfl, rfl⟩
  · exact .inl ⟨rfl, rfl, rfl, rfl⟩

/-- Every step gives one response and records it, or records nothing (R78, R203). -/
theorem StepOutcome.answersOrKeeps {s t : State} (h : StepOutcome s t) : AnswersOrKeeps s t := by
  cases h with
  | sampled p => exact s.poll_answersOrKeeps p _
  | idle => exact .inl (.refl s)
  | illegal q => exact .of_same (u := s.accept) ⟨rfl, rfl, rfl, rfl⟩ (.of_raise (.refl _) q (by decide) (.request q))
  | ran _ _ outcome => exact .of_same (u := s.accept) ⟨rfl, rfl, rfl, rfl⟩ outcome.answersOrKeeps

/-! ### The records agree -/

theorem failures_append (rs rs' : List Response) : failures (rs ++ rs') = failures rs ++ failures rs' := by
  simp [failures]

/-- A lone response is a fault just if its status is one: a status that is not recorded is OK, which is none. -/
theorem any_isFault_failures_singleton (a : Response) : (failures [a]).any Status.isFault = a.status.isFault := by
  by_cases ha : a.status = .ok
  · simp [failures, ha, Status.isFault, Status.code]
  · simp [failures, ha]

theorem RecordsAgree.of_same {s t : State} (hs : RecordsAgree s) (h : SameRecords s t) : RecordsAgree t where
  errlog := by rw [h.errlog, h.responses, hs.errlog]
  err := by rw [h.err, h.responses, hs.err]
  faulted := by rw [h.faulted, h.responses, hs.faulted]

theorem RecordsAgree.of_answered {s t : State} {a : Response} (hs : RecordsAgree s) (h : Answered s t a) :
    RecordsAgree t where
  errlog := by
    obtain ⟨es, hlog, hes⟩ := h.errlog
    rw [hlog, h.responses, List.map_append, hs.errlog, hes, failures_append]
  err := by rw [h.err, h.responses, List.getLast?_concat]; rfl
  faulted := by
    rw [h.faulted, h.responses, failures_append, List.any_append, any_isFault_failures_singleton, ← hs.faulted]
    rfl

/-- ERRLOG and the responses only grow, and FAULTED stays set (R33). -/
theorem AnswersOrKeeps.records_grow {s t : State} (h : AnswersOrKeeps s t) :
    s.errlog <+: t.errlog ∧ s.responses <+: t.responses ∧ (s.faulted = true → t.faulted = true) := by
  rcases h with ⟨hresp, _, hlog, hfaulted⟩ | ⟨a, hresp, _, ⟨es, hlog, _⟩, hfaulted⟩ <;>
    rw [hresp, hlog, hfaulted]
  · exact ⟨List.prefix_rfl, List.prefix_rfl, id⟩
  · exact ⟨List.prefix_append _ _, List.prefix_append _ _, fun hs => by simp [faultedAfter, hs]⟩

end Sys2Proof.Machine
end

section
/-! PROOFS. The control invariant, for the ways an operation ends and for the entry to a wait. -/

namespace Sys2Proof.Machine

/-- A block that holds nothing is legal with its framebuffer in canonical form and outside `Refreshing` (R173). -/
theorem Legal.of_unheld {t : State} (hmem : Memory.wf t.fbDrawn t.fb) (hn : t.inflight = none)
    (hd : t.dstate ≠ .refreshing) : Legal t where
  memory := hmem
  held h hh := by simp [hn] at hh
  refreshing _ := hd

theorem Legal.of_held {t : State} {h : Inflight} (hmem : Memory.wf t.fbDrawn t.fb) (hh : t.inflight = some h)
    (hf : HoldFits t h) : Legal t where
  memory := hmem
  held h' hh' := by
    obtain rfl : h = h' := by simpa [hh] using hh'
    exact hf
  refreshing hn := by simp [hh] at hn

/-- No limit is reached before the first sample: a limit is positive (R7, R146). -/
theorem PollLimit.reached_zero (limit : PollLimit) : PollLimit.reached limit 0 = false := by
  cases limit with
  | inf => rfl
  | polls k pos => simp [PollLimit.reached, pos.ne']

/-- The entry to an operation's first wait is legal where the state fits the wait: no sample is taken, and the events
counted are events of the trace (R23, R24, R29, R171). -/
theorem Legal.holdAt {u since : State} {p : HoldPoint} (hmem : Memory.wf u.fbDrawn u.fb)
    (hd : u.dstate = holdState p) (ho : ∀ o, holdOwned p = some o → u.fbOwned = o)
    (hc : ∀ c, holdColor p = some c → u.fbw = BitVec.allOnes NPIX ∧ ∀ a, a < NFB → u.fbByte a = c) :
    Legal (u.holdAt p 0 since) :=
  .of_held hmem (State.holdAt_inflight u p 0 since) {
    dstate := hd
    owned := ho
    filled := hc
    polls := PollLimit.reached_zero _
    step := by rw [State.holdAt_trace]; simp only; omega }

/-- The canonical form depends on the listed bytes and the drawn contents alone. -/
theorem wf_of_same_fb {s t : State} (hs : Memory.wf s.fbDrawn s.fb) (hd : t.fbDrawn = s.fbDrawn) (hf : t.fb = s.fb) :
    Memory.wf t.fbDrawn t.fb := by
  rw [hd, hf]
  exact hs

/-- Every operation keeps the canonical form of the framebuffer: packs write inside it, FB_ALLOC empties the list, CLEAR
fills it. -/
theorem ExecOutcome.keeps_memory {s t : State} {i : Instr} (h : ExecOutcome s i t)
    (hs : Memory.wf s.fbDrawn s.fb) : Memory.wf t.fbDrawn t.fb := by
  cases h with
  | packedPixel _ _ _ x y idx _ _ hx hy => exact s.wf_pack idx hs hx hy
  | packedIndex idx x y _ hx hy => exact s.wf_pack idx hs hx hy
  | packedPad x y _ hx hy => exact s.wf_pack 1 hs hx hy
  | allocated => exact Memory.wf_nil _
  | notAllocated => exact hs
  | discarded => exact hs
  | clearing c =>
    rw [State.holdAt_fbDrawn, State.holdAt_fb, State.transmitHead_fbDrawn, State.transmitHead_fb]
    exact Memory.wf_fill _ c
  | _ => exact wf_of_same_fb hs (by simp) (by simp)

/-- An operation presented in a legal state leaves a legal state. -/
theorem ExecOutcome.keeps_legal {s t : State} {i : Instr} (h : ExecOutcome s i t) (hs : Legal s)
    (hn : s.inflight = none) : Legal t := by
  have hmem := h.keeps_memory hs.memory
  have hd := hs.refreshing hn
  cases h with
  | transmitting _ owned =>
    exact .holdAt hmem (by simp [holdState]) (by simp [holdOwned, owned]) (by simp [holdColor])
  | refreshing =>
    exact .holdAt hmem (by simp [holdState]) (by simp [holdOwned]) (by simp [holdColor])
  | clearing c =>
    refine .holdAt hmem (by simp [holdState]) (by simp [holdOwned]) ?_
    intro c' hc
    obtain rfl : c = c' := by simpa [holdColor] using hc
    refine ⟨by simp, fun a ha => ?_⟩
    rw [State.transmitHead_fbByte, State.setDState_fbByte]
    exact (s.fbByte_fillFb c a).trans (if_pos ha)
  | _ => exact .of_unheld hmem (by simp [hn]) (by simp [hd])

/-- What follows a wait in a state that fits the hold is legal: each wait hands on what the next one needs. -/
theorem HoldFits.resume_legal {s since : State} {h : Inflight} (hf : HoldFits s h) (hmem : Memory.wf s.fbDrawn s.fb)
    (hstep : h.step ≤ since.trace.length) (htrace : since.trace.length ≤ s.trace.length) :
    Legal (s.resume h since) := by
  obtain ⟨hd, ho, hc, _, _⟩ := hf
  have hevents : ∀ es, h.step + ((s.trace ++ es).length - since.trace.length) ≤ (s.trace ++ es).length := by
    intro es
    rw [List.length_append]
    omega
  have hpolls := PollLimit.reached_zero s.cfg.busyTimeout
  rcases s.resume_cases h since with ⟨hp, e⟩ | ⟨p, n, hp, rfl, e⟩ | ⟨c, n, hp, rfl, e⟩ | ⟨_, e⟩ <;> rw [e]
  · exact .of_unheld hmem rfl (by simp [hd, hp, holdState])
  · rcases hp with ⟨hp, rfl⟩ | ⟨c, hp, rfl⟩ <;> rw [hp] at hd ho hc
    · exact .of_held hmem rfl ⟨hd, ho, hc, hpolls, hevents _⟩
    · exact .of_held hmem rfl ⟨hd, ho, hc, hpolls, hevents _⟩
  · rw [hp] at hc
    exact .of_held hmem rfl ⟨rfl, fun _ => Option.some.inj, hc, hpolls, hevents _⟩
  · exact .of_unheld hmem rfl (by simp)

/-- A sample taken in a legal state leaves a legal state. -/
theorem Legal.poll {s : State} {h : Inflight} (hs : Legal s) (hh : s.inflight = some h) (l : Level) :
    Legal (s.poll h l) := by
  have hmem : Memory.wf (s.poll h l).fbDrawn (s.poll h l).fb := wf_of_same_fb hs.memory (by simp) (by simp)
  obtain ⟨hd, ho, hc, hpolls, hstep⟩ := hs.held h hh
  rcases s.poll_cases h l with ⟨_, e⟩ | ⟨_, _, e⟩ | ⟨_, hr, e⟩ <;> rw [e] at hmem ⊢
  · exact HoldFits.resume_legal ⟨hd, ho, hc, hpolls, by simp; omega⟩ hs.memory hstep (by simp)
  · exact .of_unheld hmem rfl (by simp)
  · exact .of_held hmem rfl ⟨hd, ho, hc, hr, by simp; omega⟩

/-- Every step keeps the control invariant. -/
theorem StepOutcome.keeps_legal {s t : State} (h : StepOutcome s t) (hs : Legal s) : Legal t := by
  cases h with
  | sampled p held => exact hs.poll held _
  | idle => exact hs
  | illegal q _ _ unheld => exact .of_unheld hs.memory rfl (hs.refreshing unheld)
  | ran i presented outcome =>
    have haccept : Legal s.accept := .of_unheld hs.memory presented.unheld (hs.refreshing presented.unheld)
    exact outcome.keeps_legal haccept presented.unheld

end Sys2Proof.Machine
end

section
/-! PROOFS. The obligations about every step: the two invariants, and who writes what. -/

open Sys2Proof Sys2Proof.Machine

/-- Settles O41, by the outcomes of a step. -/
theorem stepKeepsLegal : Obligations.StepKeepsLegal :=
  fun _ _ hs h => (stepOutcome_of_step h).keeps_legal hs

/-- Settles O42: a step answers once and records it, or records nothing. -/
theorem stepKeepsRecordsAgree : Obligations.StepKeepsRecordsAgree := by
  intro s t hs h
  rcases (stepOutcome_of_step h).answersOrKeeps with hsame | ⟨a, ha⟩
  · exact hs.of_same hsame
  · exact hs.of_answered ha

/-- Settles O37: no sample and no refused word writes the framebuffer. -/
theorem onlyFiveOperationsWriteTheFramebuffer : Obligations.OnlyFiveOperationsWriteTheFramebuffer := by
  intro s t a h hne
  cases stepOutcome_of_step h with
  | sampled p => exact absurd (by simp) hne
  | idle => exact absurd rfl hne
  | illegal q => exact absurd (by simp [State.raiseIllegal]) hne
  | ran i presented outcome =>
    obtain ⟨q, rest, hr, hd⟩ := presented.word
    exact ⟨presented.unheld, q, rest, i, hr, hd, outcome.writes_framebuffer (by simpa using hne)⟩

/-- Settles O38: a presented operation takes ownership or discards it, a sample may only release it. -/
theorem ownershipChangesHands : Obligations.OwnershipChangesHands := by
  intro s t h
  cases stepOutcome_of_step h with
  | sampled p held =>
    refine ⟨fun hs ht => ?_, fun hs ht => .inr ⟨p, held, State.poll_releases_ownership hs ht⟩⟩
    rw [State.poll_fbOwned_false hs] at ht
    exact absurd ht (by decide)
  | idle => exact ⟨fun hs ht => by simp [hs] at ht, fun hs ht => by simp [hs] at ht⟩
  | illegal q =>
    exact ⟨fun hs ht => by simp [State.raiseIllegal, hs] at ht, fun hs ht => by simp [State.raiseIllegal, hs] at ht⟩
  | ran i presented outcome =>
    obtain ⟨q, rest, hr, hd⟩ := presented.word
    refine ⟨fun hs ht => ⟨presented.unheld, q, rest, hr, ?_⟩, fun hs ht => .inl ⟨presented.unheld, q, rest, hr, ?_⟩⟩
    · rcases outcome.takes_ownership hs ht with rfl | ⟨c, rfl⟩
      · exact .inl hd
      · exact .inr ⟨c, hd⟩
    · rw [hd, outcome.releases_ownership hs ht]

/-- Settles O39: no sample and no refused word writes RES. -/
theorem onlyResultsWriteRes : Obligations.OnlyResultsWriteRes := by
  intro s t h hne
  cases stepOutcome_of_step h with
  | sampled p => simp at hne
  | idle => simp at hne
  | illegal q => simp [State.raiseIllegal] at hne
  | ran i presented outcome =>
    obtain ⟨q, rest, hr, hd⟩ := presented.word
    obtain ⟨herr, hvalid, r, g, b, x, y, hi⟩ := outcome.writes_res (by simpa using hne)
    refine ⟨presented.unheld, herr, hvalid, q, rest, r, g, b, x, y, hr, ?_⟩
    rcases hi with rfl | rfl
    · exact .inl hd
    · exact .inr hd

/-- Settles O40: TRACE and the counters outcome by outcome, the records by what a step answers. -/
theorem historyOnlyGrows : Obligations.HistoryOnlyGrows := by
  intro s t h
  have outcome := stepOutcome_of_step h
  obtain ⟨hcfg, htrace, hbusy, hdraws, hgen⟩ := outcome.continues
  obtain ⟨hlog, hresp, hfaulted⟩ := outcome.answersOrKeeps.records_grow
  exact ⟨hcfg, htrace, hlog, hresp, hfaulted, hbusy, hdraws, hgen⟩

end

section
/-! PROOFS. The layout of a framebuffer byte: where the four pixels of one byte lie (R51), and the byte as its four 2-bit
fields (R53). -/

namespace Sys2Proof.Machine

/-- A row's bytes follow each other, four columns to a byte (R51). -/
theorem byteOffset_four_mul_add (y k : Nat) {j : Nat} (hj : j < 4) : byteOffset (4 * k + j) y = BPR * y + k := by
  simp only [byteOffset, W, BPR]; omega

/-- The leftmost of a byte's four pixels has the highest shift (R51). -/
theorem bitShift_four_mul_add (k : Nat) {j : Nat} (hj : j < 4) : bitShift (4 * k + j) = (3 - j) * 2 := by
  rw [bitShift, Nat.mul_add_mod, Nat.mod_eq_of_lt hj]

/-- The pixel at column `4k + j` is a field of byte `k` of its row. -/
theorem State.fbPixel_four_mul_add (s : State) (y k : Nat) {j : Nat} (hj : j < 4) :
    s.fbPixel (4 * k + j) y = getPixelBits (s.fbByte (BPR * y + k)) ((3 - j) * 2) := by
  rw [State.fbPixel, byteOffset_four_mul_add y k hj, bitShift_four_mul_add k hj]

/-- A pixel's bits are a base-4 digit of the byte. -/
theorem toNat_getPixelBits (v : Byte) (shift : Nat) : (getPixelBits v shift).toNat = v.toNat / 2 ^ shift % 4 := by
  rw [getPixelBits, BitVec.toNat_setWidth, BitVec.toNat_ushiftRight, Nat.shiftRight_eq_div_pow]

/-- A byte is its four fields (R53). -/
theorem toNat_eq_getPixelBits (v : Byte) :
    v.toNat = 64 * (getPixelBits v 6).toNat + 16 * (getPixelBits v 4).toNat +
      4 * (getPixelBits v 2).toNat + (getPixelBits v 0).toNat := by
  have hv : v.toNat < 256 := v.isLt
  simp only [toNat_getPixelBits]
  omega

end Sys2Proof.Machine
end

section
/-! PROOFS. The obligation about the layout of the framebuffer. -/

open Sys2Proof Sys2Proof.Machine

/-- Settles O12: the pixels at columns `4k` to `4k + 3` are the byte's fields at the shifts 6, 4, 2 and 0. -/
theorem byteIsItsFourPixels : Obligations.ByteIsItsFourPixels := by
  intro s y k _ _
  have h0 : s.fbPixel (4 * k) y = getPixelBits (s.fbByte (BPR * y + k)) 6 :=
    s.fbPixel_four_mul_add y k (j := 0) (by decide)
  have h1 : s.fbPixel (4 * k + 1) y = getPixelBits (s.fbByte (BPR * y + k)) 4 :=
    s.fbPixel_four_mul_add y k (by decide)
  have h2 : s.fbPixel (4 * k + 2) y = getPixelBits (s.fbByte (BPR * y + k)) 2 :=
    s.fbPixel_four_mul_add y k (by decide)
  have h3 : s.fbPixel (4 * k + 3) y = getPixelBits (s.fbByte (BPR * y + k)) 0 :=
    s.fbPixel_four_mul_add y k (by decide)
  rw [h0, h1, h2, h3]
  exact toNat_eq_getPixelBits _

end

section
/-! PROOFS. The decoder and the encoder as one relation between words and instructions: what a word that decodes holds
in its fields, and that the fields make the word (R70 to R76, R84). -/

namespace Sys2Proof

/-! ### The rows of the table -/

/-- A row of the table is known by its opcode (R84 "rows are disjoint"). -/
theorem row_eq_of_opcode_eq {row row' : OpcodeRow} (hr : row ∈ opcodeTable) (hr' : row' ∈ opcodeTable)
    (h : row.operation.opcode = row'.operation.opcode) : row = row' :=
  List.inj_on_of_nodup_map (List.pairwise_map.mpr opcodes_disjoint) hr hr' h

/-- No word matches two rows. -/
theorem row_eq_of_matches {q : RequestWord} {row row' : OpcodeRow} (hr : row ∈ opcodeTable) (hr' : row' ∈ opcodeTable)
    (h : row.matches q = true) (h' : row'.matches q = true) : row = row' := by
  obtain ⟨hop, -⟩ := (row_matches_iff q hr).mp h
  obtain ⟨hop', -⟩ := (row_matches_iff q hr').mp h'
  exact row_eq_of_opcode_eq hr hr' (hop.symm.trans hop')

theorem decode_of_matches {q : RequestWord} {row : OpcodeRow} (hr : row ∈ opcodeTable) (h : row.matches q = true) :
    decode q = .ok (row.build q) := by
  rcases decode_cases q with ⟨row', hr', h', hd⟩ | ⟨hnone, -⟩
  · rw [hd, row_eq_of_matches hr' hr h' h]
  · simp [hnone row hr] at h

/-- The instruction of an operation whose operands stand in the fields of `q` (R72 to R76). -/
def readOperands (q : RequestWord) : Operation → Instr
  | .quantize => .quantize (fieldR q) (fieldG q) (fieldB q) (fieldX q) (fieldY q)
  | .packPixel => .packPixel (fieldR q) (fieldG q) (fieldB q) (fieldX q) (fieldY q)
  | .packIndex => .packIndex (fieldIdx q) (fieldX q) (fieldY q)
  | .packPad => .packPad (fieldX q) (fieldY q)
  | .fbAlloc => .fbAlloc
  | .fbDiscard => .fbDiscard
  | .resetPanel => .resetPanel
  | .initializePanel => .initializePanel
  | .writeFramebuffer => .writeFramebuffer
  | .refreshPanel => .refreshPanel
  | .sleepPanel => .sleepPanel
  | .clearPanel => .clearPanel (fieldColor q)

/-- Every row assembles the operands of its operation. -/
theorem row_build_eq (q : RequestWord) {row : OpcodeRow} (hr : row ∈ opcodeTable) :
    row.build q = readOperands q row.operation := by
  simp only [opcodeTable, List.mem_cons, List.not_mem_nil, or_false] at hr
  rcases hr with rfl | rfl | rfl | rfl | rfl | rfl | rfl | rfl | rfl | rfl | rfl | rfl <;> rfl

theorem readOperands_operation (q : RequestWord) (op : Operation) : (readOperands q op).operation = op := by
  cases op <;> rfl

/-- The operands read for an instruction's operation are its own just if the fields hold them. -/
theorem readOperands_eq_iff (q : RequestWord) (i : Instr) :
    readOperands q i.operation = i ↔ Laws.operandsIn q i := by
  cases i <;> simp [readOperands, Instr.operation, Laws.operandsIn]

/-! ### What decodes -/

/-- A word decodes to `i` just if it has the opcode of `i`, zero in every bit the format reserves, and the operands of
`i` in its fields (R80, R81, R84). -/
theorem decode_eq_ok_iff (q : RequestWord) (i : Instr) :
    decode q = .ok i ↔
      q.extractLsb' 60 4 = i.operation.opcode ∧ reservedClear i.operation.format q = true ∧ Laws.operandsIn q i := by
  constructor
  · intro hi
    rcases decode_cases q with ⟨row, hr, hm, hd⟩ | ⟨-, hd⟩
    · have hbuild : readOperands q row.operation = i := by
        rw [← row_build_eq q hr]
        exact Except.ok.inj (hd.symm.trans hi)
      have hop : row.operation = i.operation := by rw [← hbuild, readOperands_operation]
      rw [hop] at hbuild
      obtain ⟨hopcode, hclear⟩ := (row_matches_iff q hr).mp hm
      rw [hop] at hopcode hclear
      exact ⟨hopcode, hclear, (readOperands_eq_iff q i).mp hbuild⟩
    · rw [hd] at hi
      cases hi
  · rintro ⟨hopcode, hclear, hoperands⟩
    obtain ⟨row, hr, hop⟩ := row_of_operation i.operation
    have hm : row.matches q = true := (row_matches_iff q hr).mpr (by rw [hop]; exact ⟨hopcode, hclear⟩)
    rw [decode_of_matches hr hm, row_build_eq q hr, hop, (readOperands_eq_iff q i).mpr hoperands]

/-- The request word of every instruction has the fields R71 gives it. -/
theorem encode_fields (i : Instr) : Laws.EncodedFields.Statement i := by
  cases i with
  | quantize r g b x y => exact Laws.EncodedFields.quantize r g b x y
  | packPixel r g b x y => exact Laws.EncodedFields.packPixel r g b x y
  | packIndex idx x y => exact Laws.EncodedFields.packIndex idx x y
  | packPad x y => exact Laws.EncodedFields.packPad x y
  | fbAlloc => exact Laws.EncodedFields.fbAlloc
  | fbDiscard => exact Laws.EncodedFields.fbDiscard
  | resetPanel => exact Laws.EncodedFields.resetPanel
  | initializePanel => exact Laws.EncodedFields.initializePanel
  | writeFramebuffer => exact Laws.EncodedFields.writeFramebuffer
  | refreshPanel => exact Laws.EncodedFields.refreshPanel
  | sleepPanel => exact Laws.EncodedFields.sleepPanel
  | clearPanel color => exact Laws.EncodedFields.clearPanel color

/-! ### The fields make the word -/

/-- Words that agree on `b` bits from `s` on and on the `a` bits above those agree on all `a + b` bits. -/
theorem extract_join {q q' : RequestWord} (s a b : Nat) (high : q.extractLsb' (s + b) a = q'.extractLsb' (s + b) a)
    (low : q.extractLsb' s b = q'.extractLsb' s b) : q.extractLsb' s (a + b) = q'.extractLsb' s (a + b) := by
  rw [← BitVec.extractLsb'_append_extractLsb'_eq_extractLsb' rfl, high, low,
    BitVec.extractLsb'_append_extractLsb'_eq_extractLsb' rfl]

/-- Two words of one operation with their reserved bits zero and the same operands are the same word: the opcode, the
reserved bits and the operands leave no bit out (R71). -/
theorem word_eq_of_fields {q q' : RequestWord} {i : Instr} (opcode : q.extractLsb' 60 4 = q'.extractLsb' 60 4)
    (clear : reservedClear i.operation.format q = true) (clear' : reservedClear i.operation.format q' = true)
    (operands : Laws.operandsIn q i) (operands' : Laws.operandsIn q' i) : q = q' := by
  have whole (h : q.extractLsb' 0 64 = q'.extractLsb' 0 64) : q = q' := by
    rwa [BitVec.extractLsb'_eq_self, BitVec.extractLsb'_eq_self] at h
  apply whole
  cases i with
  | quantize r g b x y | packPixel r g b x y =>
    obtain ⟨hr, hg, hb, hx, hy⟩ := operands
    obtain ⟨hr', hg', hb', hx', hy'⟩ := operands'
    have top := extract_join 56 4 4 opcode ((beq_iff_eq.mp clear).trans (beq_iff_eq.mp clear').symm)
    have fromR := extract_join 48 8 8 top (hr.trans hr'.symm)
    have fromG := extract_join 40 16 8 fromR (hg.trans hg'.symm)
    have fromB := extract_join 32 24 8 fromG (hb.trans hb'.symm)
    have fromY := extract_join 16 32 16 fromB (hy.trans hy'.symm)
    exact extract_join 0 48 16 fromY (hx.trans hx'.symm)
  | packIndex idx x y =>
    obtain ⟨hi, hx, hy⟩ := operands
    obtain ⟨hi', hx', hy'⟩ := operands'
    have top := extract_join 34 4 26 opcode ((beq_iff_eq.mp clear).trans (beq_iff_eq.mp clear').symm)
    have fromIdx := extract_join 32 30 2 top (hi.trans hi'.symm)
    have fromY := extract_join 16 32 16 fromIdx (hy.trans hy'.symm)
    exact extract_join 0 48 16 fromY (hx.trans hx'.symm)
  | packPad x y =>
    obtain ⟨hx, hy⟩ := operands
    obtain ⟨hx', hy'⟩ := operands'
    have top := extract_join 32 4 28 opcode ((beq_iff_eq.mp clear).trans (beq_iff_eq.mp clear').symm)
    have fromY := extract_join 16 32 16 top (hy.trans hy'.symm)
    exact extract_join 0 48 16 fromY (hx.trans hx'.symm)
  | clearPanel color =>
    have top := extract_join 8 4 52 opcode ((beq_iff_eq.mp clear).trans (beq_iff_eq.mp clear').symm)
    exact extract_join 0 56 8 top (operands.trans operands'.symm)
  | fbAlloc | fbDiscard | resetPanel | initializePanel | writeFramebuffer | refreshPanel | sleepPanel =>
    exact extract_join 0 4 60 opcode ((beq_iff_eq.mp clear).trans (beq_iff_eq.mp clear').symm)

/-! ### Well-formed words -/

theorem wellFormedRequest_iff (q : RequestWord) :
    wellFormedRequest q = true ↔
      ∃ op, operationOfOpcode (q.extractLsb' 60 4) = some op ∧ reservedClear op.format q = true := by
  unfold wellFormedRequest
  cases operationOfOpcode (q.extractLsb' 60 4) <;> simp

/-- A word is well formed just if a row of the table matches it: the field-wise checks of R80 and R81 are the masks of
R84. -/
theorem wellFormedRequest_iff_matches (q : RequestWord) :
    wellFormedRequest q = true ↔ ∃ row ∈ opcodeTable, row.matches q = true := by
  rw [wellFormedRequest_iff]
  constructor
  · rintro ⟨op, hop, hclear⟩
    obtain ⟨row, hr, rfl⟩ := row_of_operation op
    exact ⟨row, hr, (row_matches_iff q hr).mpr ⟨(opcode_of_operationOfOpcode hop).symm, hclear⟩⟩
  · rintro ⟨row, hr, hm⟩
    obtain ⟨hopcode, hclear⟩ := (row_matches_iff q hr).mp hm
    exact ⟨row.operation, by rw [hopcode, operationOfOpcode_opcode], hclear⟩

/-- The decoder refuses every word that is not well formed (R80, R81). -/
theorem decode_of_not_wellFormed {q : RequestWord} (h : wellFormedRequest q = false) : ∃ e, decode q = .error e := by
  rcases decode_cases q with ⟨row, hr, hm, -⟩ | ⟨-, hd⟩
  · rw [(wellFormedRequest_iff_matches q).mpr ⟨row, hr, hm⟩] at h
    cases h
  · exact ⟨_, hd⟩

end Sys2Proof
end

section
/-! PROOFS. The obligations about the encoding. -/

open Sys2Proof Sys2Proof.Machine

/-- Settles O1: the encoding has the opcode, the zero bits and the operands that its instruction is decoded from. -/
theorem encodeThenDecodeGivesTheInstruction : Obligations.EncodeThenDecodeGivesTheInstruction :=
  fun i => (decode_eq_ok_iff (encode i) i).mpr (encode_fields i)

/-- Settles O2: the word and the encoding agree in the opcode, the reserved bits and the operands. -/
theorem decodeThenEncodeGivesTheWord : Obligations.DecodeThenEncodeGivesTheWord := by
  intro q i h
  obtain ⟨hopcode, hclear, hoperands⟩ := (decode_eq_ok_iff q i).mp h
  obtain ⟨hopcode', hclear', hoperands'⟩ := encode_fields i
  exact word_eq_of_fields (hopcode'.trans hopcode.symm) hclear' hclear hoperands' hoperands

/-- Settles O3: a row matches, or none does; and where none does, an assigned opcode leaves only a reserved bit. -/
theorem everyWordIsOneRowOrIllegal : Obligations.EveryWordIsOneRowOrIllegal := by
  intro q
  rcases decode_cases q with ⟨row, hr, hm, hd⟩ | ⟨hnone, hd⟩
  · have hwell := (wellFormedRequest_iff_matches q).mpr ⟨row, hr, hm⟩
    have honly : ∀ row', row' ∈ opcodeTable ∧ row'.matches q = true → row' = row :=
      fun row' ⟨hr', hm'⟩ => row_eq_of_matches hr' hr hm' hm
    exact .inl ⟨⟨row, ⟨hr, hm⟩, honly⟩, hwell, _, hd⟩
  · cases hop : operationOfOpcode (q.extractLsb' 60 4) with
    | none => exact .inr (.inl ⟨hnone, rfl, by simpa [opcodeAssigned, hop] using hd⟩)
    | some op =>
      have hset : reservedClear op.format q = false := by
        rw [← Bool.not_eq_true]
        intro hclear
        obtain ⟨row, hr, hm⟩ := (wellFormedRequest_iff_matches q).mp ((wellFormedRequest_iff q).mpr ⟨op, hop, hclear⟩)
        simp [hnone row hr] at hm
      exact .inr (.inr ⟨hnone, ⟨op, rfl, hset⟩, by simpa [opcodeAssigned, hop] using hd⟩)

/-- Settles O4: the six words that decode are the encodings of their requests; the two others are evaluated. -/
theorem writtenOutWordsDecode : Obligations.WrittenOutWordsDecode := by
  have of_encode {q : RequestWord} {i : Instr} (h : encode i = q) : decode q = .ok i := by
    rw [← h]
    exact encodeThenDecodeGivesTheInstruction i
  refine ⟨of_encode ?_, of_encode ?_, of_encode ?_, of_encode ?_, of_encode ?_, of_encode ?_, ?_, ?_⟩ <;> decide

end

section
/-! PROOFS. What a step does with the presented word, and what it answers. -/

namespace Sys2Proof.Machine

/-! ### The presented word -/

theorem State.accept_eq {s : State} {q : RequestWord} {rest : List RequestWord} (hr : s.requests = q :: rest) :
    s.accept = { s with requests := rest } := by
  rw [State.accept, hr]
  rfl

theorem step_of_decode_ok {s : State} {q : RequestWord} {rest : List RequestWord} {i : Instr} (hn : s.inflight = none)
    (hr : s.requests = q :: rest) (hd : decode q = .ok i) : step s = exec i { s with requests := rest } := by
  rw [← State.accept_eq hr]
  simp only [step, State.fetch, hn, hr, hd]

theorem step_of_decode_error {s : State} {q : RequestWord} {rest : List RequestWord} {e : DecodeError}
    (hn : s.inflight = none) (hr : s.requests = q :: rest) (hd : decode q = .error e) :
    step s = .next (({ s with requests := rest } : State).raiseIllegal q) := by
  rw [← State.accept_eq hr]
  simp only [step, State.fetch, hn, hr, hd]

/-- A fault before an operation's first effect, field by field (R202, R203). -/
theorem State.raise_eq_refusedWith (s : State) (q : RequestWord) {st : Status} (hst : st.isFault = true)
    (info : ErrInfo) : s.raise q st info = refusedWith s q st info := by
  have hne : ¬ (st = .allocationError ∨ st = .deviceTimeout) := by
    rintro (rfl | rfl) <;> exact absurd hst (by decide)
  rw [State.raise_eq, refusedWith, if_neg hne, faultedAfter, hst, Bool.or_true]

/-! ### What is answered -/

/-- From `s` to `t` the operation ended: one response, with status `st` and result `r`, ERR with its status, and nothing
is held (R26, R29, R78). -/
structure Ended (s t : State) (st : Status) (r : Option (BitVec 2)) : Prop where
  responses : t.responses = s.responses ++ [responseOf st r]
  unheld : t.inflight = none
  err : t.err = st

theorem Ended.of_respond {s u : State} (hresp : u.responses = s.responses) (hn : u.inflight = none) (st : Status)
    (r : Option (BitVec 2)) : Ended s (u.respond st r) st r :=
  ⟨by rw [State.respond_responses, hresp], hn, rfl⟩

theorem Ended.of_raise {s u : State} (hresp : u.responses = s.responses) (q : RequestWord) (st : Status)
    (info : ErrInfo) : Ended s (u.raise q st info) st none :=
  ⟨by rw [State.raise_responses, hresp], rfl, rfl⟩

/-- From `s` to `t` nothing was answered, and an operation is held (R29, R78). -/
structure Held (s t : State) : Prop where
  responses : t.responses = s.responses
  held : t.inflight ≠ none

/-- `i` gives a result: it is QUANTIZE or PACK_PIXEL, and ends with the palette index of its operands, which is RES (R25,
R105, R125). -/
structure EndedWithIndex (s t : State) (i : Instr) (idx : BitVec 2) : Prop where
  ended : Ended s t .ok (some idx)
  res : t.res = idx
  resValid : t.resValid = true
  operands : ∃ r g b x y, (i = .quantize r g b x y ∨ i = .packPixel r g b x y) ∧
    idx = quantizeIndex s.cfg r g b x.toNat y.toNat

/-- An operation that runs is held, ends without a result, or ends with its palette index. -/
theorem ExecOutcome.holds_or_ends {s t : State} {i : Instr} (h : ExecOutcome s i t) (hn : s.inflight = none) :
    Held s t ∨ (∃ st, Ended s t st none) ∨ ∃ idx, EndedWithIndex s t i idx := by
  cases h with
  | quantized r g b x y idx hidx =>
    exact .inr (.inr ⟨idx, .of_respond (by simp) (by simp [hn]) _ _, rfl, rfl, r, g, b, x, y, .inl rfl, hidx⟩)
  | packedPixel r g b x y idx hidx =>
    exact .inr (.inr ⟨idx, .of_respond (by simp) (by simp [hn]) _ _, rfl, rfl, r, g, b, x, y, .inr rfl, hidx⟩)
  | transmitting | refreshing | clearing => exact .inl ⟨by simp, by simp⟩
  | refused | notAllocated => exact .inr (.inl ⟨_, .of_raise (by rfl) _ _ _⟩)
  | _ => exact .inr (.inl ⟨_, .of_respond (by simp) (by simp [hn]) _ _⟩)

theorem ExecOutcome.requests {s t : State} {i : Instr} (h : ExecOutcome s i t) : t.requests = s.requests := by
  cases h <;> simp

/-- What follows a wait holds the operation again or ends it, without a result (R165 to R171). -/
theorem State.resume_holds_or_ends (s : State) (h : Inflight) (since : State) :
    Held s (s.resume h since) ∨ ∃ st, Ended s (s.resume h since) st none := by
  rcases s.resume_cases h since with ⟨_, e⟩ | ⟨_, _, _, _, e⟩ | ⟨_, _, _, _, e⟩ | ⟨_, e⟩ <;> rw [e]
  · exact .inr ⟨_, rfl, rfl, rfl⟩
  · exact .inl ⟨rfl, by simp⟩
  · exact .inl ⟨rfl, by simp⟩
  · exact .inr ⟨_, rfl, rfl, rfl⟩

/-- A sample holds the operation or ends it, without a result (R146, R206). -/
theorem State.poll_holds_or_ends (s : State) (h : Inflight) (l : Level) :
    Held s (s.poll h l) ∨ ∃ st, Ended s (s.poll h l) st none := by
  rcases s.poll_cases h l with ⟨_, e⟩ | ⟨_, _, e⟩ | ⟨_, _, e⟩ <;> rw [e]
  · rcases State.resume_holds_or_ends _ h s with ⟨hresp, hheld⟩ | ⟨st, hresp, hnone, herr⟩
    · exact .inl ⟨hresp, hheld⟩
    · exact .inr ⟨st, hresp, hnone, herr⟩
  · exact .inr ⟨.deviceTimeout, rfl, rfl, rfl⟩
  · exact .inl ⟨rfl, by simp⟩

end Sys2Proof.Machine
end

section
/-! PROOFS. The obligations about the step and its responses. -/

open Sys2Proof Sys2Proof.Machine

/-- Settles O5, by the decoder's answer. -/
theorem stepRunsTheDecodedRequest : Obligations.StepRunsTheDecodedRequest :=
  fun _ _ _ _ hn hr hd => step_of_decode_ok hn hr hd

/-- Settles O6: the decoder refuses the word, and what is raised for it is a fault. -/
theorem illegalWordsHaveNoOtherEffect : Obligations.IllegalWordsHaveNoOtherEffect := by
  intro s q rest hn hr hill
  obtain ⟨e, hd⟩ := decode_of_not_wellFormed hill
  rw [step_of_decode_error hn hr hd, State.raiseIllegal, State.raise_eq_refusedWith _ q (by decide)]

/-- Settles O34, by the outcomes of a step; only a presented QUANTIZE or PACK_PIXEL ends with a result. -/
theorem exactlyOneResponsePerRequest : Obligations.ExactlyOneResponsePerRequest := by
  intro s t h
  cases stepOutcome_of_step h with
  | idle hn hr => exact .inl ⟨hn, hr, rfl⟩
  | sampled p held =>
    refine .inr ⟨fun hn => by simp [held] at hn, fun _ => State.poll_requests s p _, ?_⟩
    rcases s.poll_holds_or_ends p (Config.busySample s.busySamples) with ⟨hresp, hheld⟩ | ⟨st, hresp, hnone, herr⟩
    · exact .inl ⟨hresp, hheld⟩
    · exact .inr ⟨_, hresp, hnone, herr, fun _ => rfl, nofun⟩
  | illegal q rest e unheld =>
    exact .inr ⟨fun _ => rfl, fun hne => absurd unheld hne, .inr ⟨_, rfl, rfl, rfl, fun _ => rfl, nofun⟩⟩
  | ran i presented outcome =>
    refine .inr ⟨fun _ => outcome.requests, fun hne => absurd presented.unheld hne, ?_⟩
    rcases outcome.holds_or_ends presented.unheld with
      ⟨hresp, hheld⟩ | ⟨st, hresp, hnone, herr⟩ | ⟨idx, ⟨hresp, hnone, herr⟩, hres, hvalid, r, g, b, x, y, hi, hidx⟩
    · exact .inl ⟨hresp, hheld⟩
    · exact .inr ⟨_, hresp, hnone, herr, fun _ => rfl, nofun⟩
    · obtain ⟨q, rest, hr, hd⟩ := presented.word
      refine .inr ⟨_, hresp, hnone, herr, nofun, fun _ => ⟨rfl, hres.symm, hvalid, q, rest, r, g, b, x, y, hr, hidx, ?_⟩⟩
      rcases hi with rfl | rfl
      · exact .inl hd
      · exact .inr hd

end

section
/-! PROOFS. The render (R86): WRITE_FRAMEBUFFER and REFRESH up to their waits, and what follows a wait whose first sample
is the done level. -/

namespace Sys2Proof.Machine

theorem exec_writeFramebuffer_of_ready {s : State} (hs : s.dstate = .ready) (ho : s.fbOwned = true) :
    exec .writeFramebuffer s = .next ((s.setDState .transmitting).transmitHead.holdAt .writeFramebuffer 0 s) := by
  simp [exec, execWriteFramebuffer, stateFailure, legalIn, Instr.operation, hs, ho]

theorem exec_refreshPanel_of_transmitting {s : State} (hs : s.dstate = .transmitting) :
    exec .refreshPanel s =
      .next (((s.setDState .refreshing).sendEntry (refreshEntry s.cfg)).holdAt .refreshFirst 0 s) := by
  simp [exec, execRefreshPanel, stateFailure, legalIn, Instr.operation, hs]

/-- The done level ends the wait it is sampled in (R146). -/
theorem State.poll_busyDoneLevel (s : State) (h : Inflight) :
    s.poll h s.cfg.busyDoneLevel = ({ s with
      busySamples := s.busySamples + 1, trace := s.trace ++ [.busy s.cfg.busyDoneLevel] } : State).resume h s := by
  rcases s.poll_cases h s.cfg.busyDoneLevel with ⟨_, e⟩ | ⟨hne, _⟩ | ⟨hne, _⟩
  · exact e
  · exact absurd rfl hne
  · exact absurd rfl hne

/-- The done level at WRITE_FRAMEBUFFER's wait: the framebuffer's bytes on the bus, and the end (R165, R166). -/
theorem State.pollAll_writeFramebuffer {s : State} {h : Inflight} (hh : s.inflight = some h)
    (hp : h.point = .writeFramebuffer) :
    s.pollAll [s.cfg.busyDoneLevel] = { s with
      busySamples := s.busySamples + 1, dc := .high, cs := s.cfg.csActiveLevel.not
      trace := s.trace ++ [.busy s.cfg.busyDoneLevel] ++ ramEvents s.cfg s.fbBytes
      fbOwned := false, inflight := none, err := .ok
      responses := s.responses ++ [{ status := .ok, result := 0#2, resultValid := false }] } := by
  simp only [State.pollAll, hh, State.poll_busyDoneLevel, State.resume, hp, State.transmitTail_eq, State.complete_eq]
  rfl

/-- The done level at both waits of REFRESH: power off between them, then `Ready` (R167, R168). -/
theorem State.pollAll_refresh {s : State} {h : Inflight} (hh : s.inflight = some h) (hp : h.point = .refreshFirst) :
    s.pollAll [s.cfg.busyDoneLevel, s.cfg.busyDoneLevel] = { s with
      busySamples := s.busySamples + 2, dc := .high, cs := s.cfg.csActiveLevel.not
      trace := s.trace ++ [.busy s.cfg.busyDoneLevel] ++ entryEvents (powerOffEntry s.cfg) ++
        [.busy s.cfg.busyDoneLevel]
      dstate := .ready, inflight := none, err := .ok
      responses := s.responses ++ [{ status := .ok, result := 0#2, resultValid := false }] } := by
  have first : s.poll h s.cfg.busyDoneLevel = ((({ s with
      busySamples := s.busySamples + 1, trace := s.trace ++ [.busy s.cfg.busyDoneLevel] } : State).sendEntry
        (powerOffEntry s.cfg)).holdAt .refreshSecond h.step s) := by
    rw [State.poll_busyDoneLevel, State.resume, hp]
  generalize hu : (({ s with
      busySamples := s.busySamples + 1, trace := s.trace ++ [.busy s.cfg.busyDoneLevel] } : State).sendEntry
        (powerOffEntry s.cfg)).holdAt .refreshSecond h.step s = u at first
  have hcfg : u.cfg = s.cfg := by simp [← hu]
  have hheld : u.inflight.map (·.point) = some .refreshSecond := by simp [← hu]
  obtain ⟨h', hh', hp'⟩ := Option.map_eq_some_iff.mp hheld
  simp only [State.pollAll, hh, first, hh']
  rw [← hcfg, State.poll_busyDoneLevel, State.resume, hp', hcfg, State.complete_eq, ← hu, State.sendEntry_eq]
  rfl

theorem State.fbBytes_eq_of_fbByte_eq {s t : State} (h : t.fbByte = s.fbByte) : t.fbBytes = s.fbBytes := by
  rw [State.fbBytes, State.fbBytes, h]

end Sys2Proof.Machine
end

section
/-! PROOFS. The obligation about the render. -/

open Sys2Proof Sys2Proof.Machine

/-- Settles O28: RESET, INITIALIZE, WRITE_FRAMEBUFFER through its wait, REFRESH through its two. -/
theorem renderSendsTheFrame : Obligations.RenderSendsTheFrame := by
  intro s ho
  have hreset := exec_resetPanel s
  generalize ht1 : (s.resetPulse.setDState .awaitingReset).respond .ok none = t1 at hreset
  have hinit := exec_initializePanel_of_awaitingReset (s := t1) (by rw [← ht1]; rfl)
  generalize ht2 : ((t1.sendEntries t1.cfg.initSeq).setDState .ready).respond .ok none = t2 at hinit
  have hwrite := exec_writeFramebuffer_of_ready (s := t2) (by rw [← ht2]; rfl) (by simp [← ht2, ← ht1, ho])
  generalize hu3 : (t2.setDState .transmitting).transmitHead.holdAt .writeFramebuffer 0 t2 = u3 at hwrite
  have hcfg3 : u3.cfg = s.cfg := by simp [← hu3, ← ht2, ← ht1]
  have hwritten := State.pollAll_writeFramebuffer (s := u3) (by rw [← hu3]; exact State.holdAt_inflight ..) rfl
  generalize ht3 : u3.pollAll [u3.cfg.busyDoneLevel] = t3 at hwritten
  have hrefresh := exec_refreshPanel_of_transmitting (s := t3) (by simp [hwritten, ← hu3])
  generalize hu4 : ((t3.setDState .refreshing).sendEntry (refreshEntry t3.cfg)).holdAt .refreshFirst 0 t3 = u4
    at hrefresh
  have hcfg4 : u4.cfg = s.cfg := by simp [← hu4, hwritten, hcfg3]
  have hrefreshed := State.pollAll_refresh (s := u4) (by rw [← hu4]; exact State.holdAt_inflight ..) rfl
  have hbytes : u3.fbBytes = s.fbBytes :=
    State.fbBytes_eq_of_fbByte_eq (by simp [← hu3, ← ht2, ← ht1])
  refine ⟨t1, t2, u3, u4, hreset, hinit, hwrite, ?_, ?_⟩
  · rw [← hcfg3, ht3]
    exact hrefresh
  · rw [← hcfg4, hrefreshed]
    simp only [← hu4, hwritten, hbytes, hcfg3, State.holdAt_trace, State.sendEntry_trace]
    simp [← hu3, ← ht2, ← ht1]

end

section
/-! PROOFS. The quantizer (R100 to R107): the clamped channels and the distances; the loop of R104 as the first minimum
of the distances; a gray under the default palette. -/

namespace Sys2Proof.Machine

theorem sq_sub_channel_le {v : Int} (h0 : 0 ≤ v) (h1 : v ≤ 255) (c : Byte) : (v - c.toNat) ^ 2 ≤ 65025 := by
  have hc := c.isLt
  have hsq : (v - c.toNat) ^ 2 ≤ 255 ^ 2 := sq_le_sq' (by omega) (by omega)
  exact hsq

theorem le_clamp_iff {k : Int} (h0 : 0 < k) (h1 : k ≤ 255) (v : Int) : k ≤ clamp v 0 255 ↔ k ≤ v := by
  unfold clamp
  split
  · omega
  · split <;> omega

/-! ### The loop of R104 -/

/-- The second of two entries leaves the first minimum only by being strictly closer. -/
theorem argmin_cons_cons {α : Type} (f : α → Int) (a b : α) (l : List α) :
    List.argmin f (a :: b :: l) = List.argmin f ((if f b < f a then b else a) :: l) := by
  simp only [List.argmin, List.foldl_cons, List.argAux]
  split <;> rfl

theorem argmin_cons_of_forall_le {α : Type} [DecidableEq α] {f : α → Int} {a : α} {l : List α}
    (h : ∀ b ∈ l, f a ≤ f b) : List.argmin f (a :: l) = some a :=
  List.argmin_eq_some_iff.mpr ⟨List.mem_cons_self, by simpa using h, by simp⟩

/-- From an entry that is not at distance 0, the loop ends with the index of the first nearest one, the
start included: an entry at distance 0 ends it, and no later one is closer. -/
theorem argmin_fst_eq_searchFrom (p : Adjusted) (l : List (BitVec 2 × Rgb)) (i : BitVec 2) (c : Rgb)
    (hpos : 0 < distance p c) :
    (List.argmin (fun e => distance p e.2) ((i, c) :: l)).map Prod.fst =
      some (searchFrom p l i (some (distance p c))) := by
  induction l generalizing i c with
  | nil => rfl
  | cons e l ih =>
    obtain ⟨j, d⟩ := e
    have hd := distance_nonneg p d
    rw [argmin_cons_cons]
    by_cases hzero : distance p d = 0
    · rw [if_pos (hzero ▸ hpos), argmin_cons_of_forall_le fun b _ => hzero ▸ distance_nonneg p b.2]
      simp [searchFrom, hzero]
    · by_cases hlt : distance p d < distance p c
      · simpa [searchFrom, hzero, closer, hlt] using ih j d (by omega)
      · simpa [searchFrom, hzero, closer, hlt] using ih i c hpos

/-- Before the first entry nothing has been seen, so that it is taken at any distance. -/
theorem argmin_fst_eq_searchFrom_none (p : Adjusted) (e : BitVec 2 × Rgb) (l : List (BitVec 2 × Rgb)) (i : BitVec 2) :
    (List.argmin (fun e => distance p e.2) (e :: l)).map Prod.fst = some (searchFrom p (e :: l) i none) := by
  by_cases hzero : distance p e.2 = 0
  · rw [argmin_cons_of_forall_le fun b _ => hzero ▸ distance_nonneg p b.2]
    simp [searchFrom, hzero]
  · have hpos : 0 < distance p e.2 := lt_of_le_of_ne (distance_nonneg p e.2) (Ne.symm hzero)
    rw [argmin_fst_eq_searchFrom p l e.1 e.2 hpos]
    simp [searchFrom, hzero, closer]

theorem mem_paletteEntries {p : Palette} {j : BitVec 2} {c : Rgb} :
    (j, c) ∈ paletteEntries p ↔
      (j = 0 ∧ c = p.black) ∨ (j = 1 ∧ c = p.white) ∨ (j = 2 ∧ c = p.yellow) ∨ (j = 3 ∧ c = p.red) := by
  simp [paletteEntries]

/-- An entry's place in the palette is its index (R28), however the entries are compared. -/
theorem idxOf_paletteEntries {inst : BEq (BitVec 2 × Rgb)} [LawfulBEq (BitVec 2 × Rgb)] {p : Palette}
    {j : BitVec 2} {c : Rgb} (h : (j, c) ∈ paletteEntries p) : (paletteEntries p).idxOf (j, c) = j.toNat := by
  rcases mem_paletteEntries.mp h with ⟨rfl, rfl⟩ | ⟨rfl, rfl⟩ | ⟨rfl, rfl⟩ | ⟨rfl, rfl⟩ <;> simp [paletteEntries]

/-- `i` is the index of the palette entry `best`, no entry is closer to `p`, and every entry of a lower index is
strictly farther (R104). -/
def IsNearest (pal : Palette) (p : Adjusted) (i : BitVec 2) (best : Rgb) : Prop :=
  (i, best) ∈ paletteEntries pal ∧
  ∀ j c, (j, c) ∈ paletteEntries pal →
    distance p best ≤ distance p c ∧ (j.toNat < i.toNat → distance p best < distance p c)

theorem isNearest_of_argmin {pal : Palette} {p : Adjusted} {i : BitVec 2} {best : Rgb}
    (hmin : List.argmin (fun e => distance p e.2) (paletteEntries pal) = some (i, best)) : IsNearest pal p i best := by
  obtain ⟨hmem, hle, hfirst⟩ := List.argmin_eq_some_iff.mp hmin
  refine ⟨hmem, fun j c hc => ⟨hle (j, c) hc, fun hlower => ?_⟩⟩
  have hplace := hfirst (j, c) hc
  rw [idxOf_paletteEntries (inst := instBEqOfDecidableEq) hmem,
    idxOf_paletteEntries (inst := instBEqOfDecidableEq) hc] at hplace
  exact lt_of_not_ge fun hge => absurd (hplace hge) (Nat.not_le.mpr hlower)

theorem quantizeIndex_isNearest (c : Config) (r g b : Byte) (x y : Nat) :
    ∃ best, IsNearest c.palette (adjustPixel c.thresh r g b x y) (quantizeIndex c r g b x y) best := by
  obtain ⟨⟨_, best⟩, hmin, hindex⟩ :=
    Option.map_eq_some_iff.mp (argmin_fst_eq_searchFrom_none (adjustPixel c.thresh r g b x y) (0, c.palette.black)
      [(1, c.palette.white), (2, c.palette.yellow), (3, c.palette.red)] 0)
  subst hindex
  exact ⟨best, isNearest_of_argmin hmin⟩

/-! ### Grays under the default palette -/

/-- For the gray `w` the nearest entry of the default palette is white from 128 up and black below: the four distances
are `3w²`, and that plus one, two or three times `(255 - w)² - w² = 255 * (255 - 2w)`, which is never 0. -/
theorem index_of_isNearest_gray {w : Int} {i : BitVec 2} {best : Rgb}
    (h : IsNearest defaultPalette ⟨w, w, w⟩ i best) : i = if 128 ≤ w then 1#2 else 0#2 := by
  obtain ⟨hmem, hnearest⟩ := h
  have hblack : distance ⟨w, w, w⟩ defaultPalette.black = 3 * w ^ 2 := by simp [distance, defaultPalette]; ring
  have hwhite : distance ⟨w, w, w⟩ defaultPalette.white = 3 * w ^ 2 + 3 * (255 * (255 - 2 * w)) := by
    simp [distance, defaultPalette]; ring
  have hyellow : distance ⟨w, w, w⟩ defaultPalette.yellow = 3 * w ^ 2 + 2 * (255 * (255 - 2 * w)) := by
    simp [distance, defaultPalette]; ring
  have hred : distance ⟨w, w, w⟩ defaultPalette.red = 3 * w ^ 2 + 255 * (255 - 2 * w) := by
    simp [distance, defaultPalette]; ring
  have hleBlack := (hnearest 0 defaultPalette.black (by simp [mem_paletteEntries])).1
  have hleWhite := (hnearest 1 defaultPalette.white (by simp [mem_paletteEntries])).1
  rcases mem_paletteEntries.mp hmem with ⟨rfl, rfl⟩ | ⟨rfl, rfl⟩ | ⟨rfl, rfl⟩ | ⟨rfl, rfl⟩
  · exact (if_neg (by omega)).symm
  · exact (if_pos (by omega)).symm
  · omega
  · omega

/-- A gray under the default palette, whatever the thresholds: the clamp does not cross 128. -/
theorem quantizeIndex_gray {c : Config} (hpal : c.palette = defaultPalette) (v : Byte) (x y : Nat) :
    quantizeIndex c v v v x y = if 128 ≤ (v.toNat : Int) + thresholdAt c.thresh (bayer x y) then 1#2 else 0#2 := by
  obtain ⟨best, hnearest⟩ := quantizeIndex_isNearest c v v v x y
  rw [hpal] at hnearest
  rw [index_of_isNearest_gray hnearest, adjust]
  simp only [le_clamp_iff (k := 128) (by decide) (by decide)]

end Sys2Proof.Machine
end

section
/-! PROOFS. The obligations about the quantizer. -/

open Sys2Proof Sys2Proof.Machine

/-- Settles O8, by the parities of the position and by the four values of the table. -/
theorem bayerMatrixAndThresholds : Obligations.BayerMatrixAndThresholds := by
  refine ⟨fun x y => ?_, by decide⟩
  rcases Nat.mod_two_eq_zero_or_one y with hy | hy <;> rcases Nat.mod_two_eq_zero_or_one x with hx | hx <;>
    simp [bayer, hx, hy]

/-- Settles O9: a clamped channel and a palette's channel are at most 255 apart. -/
theorem distancesStayInRange : Obligations.DistancesStayInRange := by
  intro t r g b x y c p
  obtain ⟨hr0, hr1⟩ : 0 ≤ p.r ∧ p.r ≤ 255 := clamp_range _
  obtain ⟨hg0, hg1⟩ : 0 ≤ p.g ∧ p.g ≤ 255 := clamp_range _
  obtain ⟨hb0, hb1⟩ : 0 ≤ p.b ∧ p.b ≤ 255 := clamp_range _
  have hr := sq_sub_channel_le hr0 hr1 c.r
  have hg := sq_sub_channel_le hg0 hg1 c.g
  have hb := sq_sub_channel_le hb0 hb1 c.b
  have hd : distance p c ≤ 195075 := by unfold distance; omega
  exact ⟨⟨hr0, hr1⟩, ⟨hg0, hg1⟩, ⟨hb0, hb1⟩, hr, hg, hb, distance_nonneg p c, hd⟩

/-- Settles O10: the loop finds the first nearest entry, and an entry's place is its index. -/
theorem quantizeAnswersTheNearestEntry : Obligations.QuantizeAnswersTheNearestEntry := by
  intro s r g b x y
  obtain ⟨best, hmem, hnearest⟩ := quantizeIndex_isNearest s.cfg r g b x.toNat y.toNat
  exact ⟨_, best, rfl, hmem, hnearest⟩

/-- Settles O11: white begins at 144 under the offset -16 of (0,0), and at 134 under the offset -6 of (1,1). -/
theorem graysDitherByPosition : Obligations.GraysDitherByPosition := by
  intro c hpal hthresh v
  have hindex (x y : Nat) : quantizeIndex c v v v x y =
      if 128 ≤ (v.toNat : Int) + thresholdAt standardThresholds (bayer x y) then 1#2 else 0#2 :=
    hthresh ▸ quantizeIndex_gray hpal v x y
  have h00 : thresholdAt standardThresholds (bayer 0 0) = -16 := rfl
  have h11 : thresholdAt standardThresholds (bayer 1 1) = -6 := rfl
  refine ⟨hindex, ?_⟩
  rw [hindex 0 0, hindex 1 1, h00, h11]
  rcases Nat.lt_or_ge v.toNat 134 with h134 | h134
  · rw [if_neg (by omega), if_neg (by omega)]
    exact iff_of_false (by decide) (by omega)
  · rcases Nat.lt_or_ge v.toNat 144 with h144 | h144
    · rw [if_neg (by omega), if_pos (by omega)]
      exact iff_of_true (by decide) (by omega)
    · rw [if_pos (by omega), if_pos (by omega)]
      exact iff_of_false (by decide) (by omega)

end

section
/-! PROOFS. The packer (R120 to R128): a byte as its four fields, what one pack and two packs leave, and the state each
of the three pack operations ends in. -/

namespace Sys2Proof.Machine

/-! ### The fields of a byte -/

/-- A byte is known by its four fields (R53). -/
theorem byte_ext_getPixelBits {v w : Byte} (h : ∀ x, getPixelBits v (bitShift x) = getPixelBits w (bitShift x)) :
    v = w := by
  have h6 : getPixelBits v 6 = getPixelBits w 6 := h 0
  have h4 : getPixelBits v 4 = getPixelBits w 4 := h 1
  have h2 : getPixelBits v 2 = getPixelBits w 2 := h 2
  have h0 : getPixelBits v 0 = getPixelBits w 0 := h 3
  apply BitVec.eq_of_toNat_eq
  rw [toNat_eq_getPixelBits v, toNat_eq_getPixelBits w, h6, h4, h2, h0]

/-- Each field of a byte after one field was set. -/
theorem getPixelBits_setPixelBits (v : Byte) (idx : BitVec 2) (x x' : Nat) :
    getPixelBits (setPixelBits v (bitShift x) idx) (bitShift x') =
      if bitShift x = bitShift x' then idx else getPixelBits v (bitShift x') := by
  split
  next h => rw [← h, getPixelBits_setPixelBits_same]
  next h => exact getPixelBits_setPixelBits_other v idx h

/-- Setting a field moves no bit outside it (R121). -/
theorem getLsbD_setPixelBits_other (v : Byte) (idx : BitVec 2) {shift k : Nat} (h0 : k ≠ shift) (h1 : k ≠ shift + 1) :
    (setPixelBits v shift idx).getLsbD k = v.getLsbD k := by
  rcases Nat.lt_or_ge k 8 with hk | hk
  · rcases Nat.lt_or_ge k shift with hlow | hhigh
    · simp [setPixelBits, hk, hlow]
    · have above (f : BitVec 2) : (f.setWidth 8).getLsbD (k - shift) = false := by
        rw [BitVec.getLsbD_setWidth, BitVec.getLsbD_of_ge f _ (by omega), Bool.and_false]
      have mask : (3#8).getLsbD (k - shift) = false := above 3#2
      simp only [setPixelBits, BitVec.getLsbD_or, BitVec.getLsbD_and, BitVec.getLsbD_not, BitVec.getLsbD_shiftLeft,
        mask, above idx, hk]
      simp
  · rw [BitVec.getLsbD_of_ge _ _ hk, BitVec.getLsbD_of_ge _ _ hk]

theorem setPixelBits_comm (v : Byte) (i j : BitVec 2) {x x' : Nat} (hne : bitShift x ≠ bitShift x') :
    setPixelBits (setPixelBits v (bitShift x) i) (bitShift x') j =
      setPixelBits (setPixelBits v (bitShift x') j) (bitShift x) i := by
  refine byte_ext_getPixelBits fun z => ?_
  simp only [getPixelBits_setPixelBits]
  by_cases hx : bitShift x = bitShift z
  · have hx' : bitShift x' ≠ bitShift z := fun h => hne (hx.trans h.symm)
    rw [if_neg hx', if_pos hx, if_pos hx]
  · rw [if_neg hx, if_neg hx]

theorem setPixelBits_overwrite (v : Byte) (i j : BitVec 2) (x : Nat) :
    setPixelBits (setPixelBits v (bitShift x) i) (bitShift x) j = setPixelBits v (bitShift x) j := by
  refine byte_ext_getPixelBits fun z => ?_
  simp only [getPixelBits_setPixelBits]
  split <;> rfl

/-! ### One pack, and two -/

/-- Only the framebuffer's bytes and `FBW` say what was packed. -/
theorem PixelPacked.of_same_framebuffer {s t u : State} {x y : Nat} {idx : BitVec 2} (h : PixelPacked s t x y idx)
    (bytes : u.fbByte = t.fbByte) (marks : u.fbw = t.fbw) : PixelPacked s u x y idx := by
  have pixels : u.fbPixel = t.fbPixel := by
    funext x y
    rw [State.fbPixel, bytes]
    rfl
  have written : u.written x y = t.written x y := by rw [State.written, marks, State.written]
  obtain ⟨hpixel, hbits, hbytes, hpixels, hmark, hmarks⟩ := h
  exact ⟨pixels ▸ hpixel, bytes ▸ hbits, bytes ▸ hbytes, pixels ▸ hpixels, written.trans hmark, marks ▸ hmarks⟩

/-- `pack` changes one pixel and its mark (R121). -/
theorem State.pack_pixelPacked (s : State) {x y : Nat} (idx : BitVec 2) (hx : x < W) (hy : y < H) :
    PixelPacked s (s.pack x y idx) x y idx where
  pixel := by rw [s.fbPixel_pack idx hx hx, if_pos ⟨rfl, rfl⟩]
  bits k h0 h1 := by rw [State.fbByte_pack, if_pos rfl, getLsbD_setPixelBits_other _ _ h0 h1]
  bytes a ha := by rw [State.fbByte_pack, if_neg ha]
  pixels x' y' hx' _ hne := by rw [s.fbPixel_pack idx hx hx', if_neg fun e => hne (Prod.ext e.1 e.2)]
  mark := by rw [State.written, s.fbw_pack x y idx (pixelNumber_lt hx hy), decide_eq_true rfl, Bool.or_true]
  marks p hp hne := by rw [s.fbw_pack x y idx hp, decide_eq_false hne, Bool.or_false]

/-- States that differ in the framebuffer alone are one state if its bytes and `FBW` agree: the canonical form is one. -/
theorem State.eq_of_same_framebuffer {s t : State} (frame : t = { s with fb := t.fb, fbw := t.fbw })
    (hs : Memory.wf s.fbDrawn s.fb) (ht : Memory.wf t.fbDrawn t.fb) (bytes : t.fbByte = s.fbByte)
    (marks : t.fbw = s.fbw) : t = s := by
  have drawn : t.fbDrawn = s.fbDrawn := by rw [frame]; rfl
  have fb : t.fb = s.fb := by
    refine Memory.ext_of_wf s.fbDrawn (drawn ▸ ht) hs fun a => ?_
    have hread : Memory.read t.fbDrawn t.fb a = Memory.read s.fbDrawn s.fb a := congrFun bytes a
    rwa [drawn] at hread
  rw [frame, fb, marks]

/-- Packs of two pixels commute (R128). -/
theorem State.pack_comm (s : State) {x y x' y' : Nat} (i j : BitVec 2) (hwf : Memory.wf s.fbDrawn s.fb)
    (hx : x < W) (hy : y < H) (hx' : x' < W) (hy' : y' < H) (hne : ¬ (x = x' ∧ y = y')) :
    (s.pack x y i).pack x' y' j = (s.pack x' y' j).pack x y i := by
  have marks : ((s.pack x y i).pack x' y' j).fbw = ((s.pack x' y' j).pack x y i).fbw := by
    simp only [State.pack_fbw, BitVec.or_assoc, BitVec.or_comm (BitVec.twoPow NPIX (pixelNumber x y))]
  refine State.eq_of_same_framebuffer rfl ((s.pack x' y' j).wf_pack i (s.wf_pack j hwf hx' hy') hx hy)
    ((s.pack x y i).wf_pack j (s.wf_pack i hwf hx hy) hx' hy') ?_ marks
  funext a
  simp only [State.fbByte_pack]
  by_cases ha : a = byteOffset x y
  · by_cases ha' : a = byteOffset x' y'
    · have hshift : bitShift x ≠ bitShift x' := fun h => hne (pixel_eq_of_location hx hx' (ha.symm.trans ha') h)
      rw [if_pos ha, if_pos ha, if_pos ha', if_pos ha', setPixelBits_comm _ i j hshift]
    · rw [if_neg ha', if_neg ha']
  · rw [if_neg ha, if_neg ha]

/-- Of two packs of one pixel the later decides (R128). -/
theorem State.pack_overwrite (s : State) {x y : Nat} (i j : BitVec 2) (hwf : Memory.wf s.fbDrawn s.fb)
    (hx : x < W) (hy : y < H) : (s.pack x y i).pack x y j = s.pack x y j := by
  have marks : ((s.pack x y i).pack x y j).fbw = (s.pack x y j).fbw := by
    simp only [State.pack_fbw, BitVec.or_assoc, BitVec.or_self]
  refine State.eq_of_same_framebuffer rfl (s.wf_pack j hwf hx hy)
    ((s.pack x y i).wf_pack j (s.wf_pack i hwf hx hy) hx hy) ?_ marks
  funext a
  simp only [State.fbByte_pack]
  by_cases ha : a = byteOffset x y
  · rw [if_pos ha, if_pos ha, if_pos ha, setPixelBits_overwrite]
  · rw [if_neg ha, if_neg ha, if_neg ha]

/-! ### The three pack operations -/

/-- The result of a pack operation that packs `idx`: PACK_PIXEL alone has one (R124 to R126). -/
def packResult (i : Instr) (idx : BitVec 2) : Option (BitVec 2) :=
  if i.operation = .packPixel then some idx else none

theorem packResult_packPixel {i : Instr} (h : i.operation = .packPixel) (idx : BitVec 2) :
    packResult i idx = some idx := if_pos h

theorem packResult_of_ne {i : Instr} (h : i.operation ≠ .packPixel) (idx : BitVec 2) : packResult i idx = none :=
  if_neg h

/-- The pack of one pixel and its response, with RES where there is a result (R121, R124 to R126). -/
def State.packAnswered (s : State) (x y : Nat) (idx : BitVec 2) (result : Option (BitVec 2)) : State :=
  { s.pack x y idx with
    res := result.getD s.res, resValid := s.resValid || result.isSome, err := .ok
    responses := s.responses ++ [responseOf .ok result] }

/-- A pack operation that passes its checks, its result decided (R120, R124 to R126). -/
theorem exec_eq_packAnswered {s : State} {i : Instr} {idx : BitVec 2} {x y : Coord}
    (ht : packTarget s.cfg i = some (idx, x, y)) (ho : s.fbOwned = true) (hx : x.toNat < W) (hy : y.toNat < H) :
    exec i s = .next (s.packAnswered x.toNat y.toNat idx (packResult i idx)) := by
  obtain ⟨r, v, a, he, hplain, hpixel⟩ := exec_packTarget ht ho hx hy
  rw [he, State.packAnswered]
  by_cases hi : i.operation = .packPixel
  · obtain ⟨rfl, rfl, rfl⟩ := hpixel hi
    rw [packResult_packPixel hi, Option.isSome_some, Bool.or_true]
    rfl
  · obtain ⟨rfl, rfl, rfl⟩ := hplain hi
    rw [packResult_of_ne hi, Option.isSome_none, Bool.or_false]
    rfl

theorem State.packAnswered_pixelPacked (s : State) {x y : Nat} (idx : BitVec 2) (result : Option (BitVec 2))
    (hx : x < W) (hy : y < H) : PixelPacked s (s.packAnswered x y idx result) x y idx :=
  (s.pack_pixelPacked idx hx hy).of_same_framebuffer rfl rfl

/-- Two pack operations on the panel, one after the other. -/
theorem runAll_two_packs {s : State} {i j : Instr} {idx idx' : BitVec 2} {x y x' y' : Coord}
    (hi : packTarget s.cfg i = some (idx, x, y)) (hj : packTarget s.cfg j = some (idx', x', y'))
    (ho : s.fbOwned = true) (hx : x.toNat < W) (hy : y.toNat < H) (hx' : x'.toNat < W) (hy' : y'.toNat < H) :
    runAll [i, j] s = some ((s.packAnswered x.toNat y.toNat idx (packResult i idx)).packAnswered
      x'.toNat y'.toNat idx' (packResult j idx')) := by
  have first := exec_eq_packAnswered hi ho hx hy
  have second := exec_eq_packAnswered (s := s.packAnswered x.toNat y.toNat idx (packResult i idx)) hj ho hx' hy'
  exact (runAll_cons first _).trans (runAll_cons second [])

/-- Two answers leave the two packs, and RES, RES_VALID, ERR and the responses of both. -/
theorem State.packAnswered_packAnswered (s : State) (x y x' y' : Nat) (idx idx' : BitVec 2)
    (a b : Option (BitVec 2)) :
    (s.packAnswered x y idx a).packAnswered x' y' idx' b = { (s.pack x y idx).pack x' y' idx' with
      res := b.getD (a.getD s.res), resValid := s.resValid || a.isSome || b.isSome, err := .ok
      responses := s.responses ++ [responseOf .ok a] ++ [responseOf .ok b] } := rfl

/-- A pack operation whose check fails ends with that fault and nothing else (R120, R202). -/
theorem exec_eq_refusedWith_of_packFailure {s : State} {i : Instr} {idx : BitVec 2} {x y : Coord} {st : Status}
    {info : ErrInfo} (ht : packTarget s.cfg i = some (idx, x, y)) (hf : packFailure s i x y = some (st, info))
    (hst : st.isFault = true) : exec i s = .next (refusedWith s (encode i) st info) := by
  rw [← State.raise_eq_refusedWith s (encode i) hst info]
  cases i <;> simp only [packTarget, Option.some.injEq, Prod.mk.injEq, reduceCtorEq] at ht <;>
    obtain ⟨-, rfl, rfl⟩ := ht
  case packPixel => simp only [exec, execPackPixel, hf, State.guarded_some]
  case packIndex => simp only [exec, execPackIndex, hf, State.guarded_some]
  case packPad => simp only [exec, execPackPad, hf, State.guarded_some]

end Sys2Proof.Machine
end

section
/-! PROOFS. FB_ALLOC and FB_DISCARD (R122, R123, R127), and a run of packs on a fresh framebuffer (R129). -/

namespace Sys2Proof.Machine

/-- FB_ALLOC that allocates: every byte is drawn anew and no pixel is marked (R122, R123). -/
theorem exec_fbAlloc_fresh {s : State} (ho : s.fbOwned = false)
    (hd : s.cfg.allocMayFail = false ∨ Config.allocDraw s.allocDraws = true) :
    ∃ t, exec .fbAlloc s = .next t ∧ (∀ a, t.fbByte a = Config.freshByte (s.fbGen + 1) a) ∧
      (∀ x y, x < W → y < H → t.written x y = false) ∧
      t = { s with
        fb := t.fb, fbw := 0#NPIX, fbOwned := true, fbGen := s.fbGen + 1, allocDraws := s.allocDraws + 1, err := .ok
        responses := s.responses ++ [{ status := .ok, result := 0#2, resultValid := false }] } :=
  ⟨_, exec_fbAlloc_of_allocates ho hd, fun _ => rfl, fun _ _ _ _ => BitVec.getLsbD_zero, rfl⟩

/-- FB_ALLOC whose draw fails: ALLOCATION_ERROR, which is no fault, after the draw (R123, R204). -/
theorem exec_fbAlloc_of_draw_false {s : State} (ho : s.fbOwned = false) (hm : s.cfg.allocMayFail = true)
    (hd : Config.allocDraw s.allocDraws = false) :
    exec .fbAlloc s = .next (refusedWith { s with allocDraws := s.allocDraws + 1 } (encode .fbAlloc) .allocationError
      .nothing) := by
  have hok : s.allocOk = false := by simp [State.allocOk, hm, hd]
  have hfaulted : faultedAfter s.faulted .allocationError = s.faulted := Bool.or_false _
  simp only [exec, execFbAlloc, ho, hok, Bool.false_eq_true, if_false, State.guarded_none, State.allocate,
    State.raise_eq, hfaulted]
  rfl

theorem exec_fbAlloc_of_owned {s : State} (ho : s.fbOwned = true) :
    exec .fbAlloc s = .next (refusedWith s (encode .fbAlloc) .fbAlreadyOwned (.operation .fbAlloc)) := by
  rw [← State.raise_eq_refusedWith s (encode .fbAlloc) (by decide)]
  simp only [exec, execFbAlloc, ho, if_true, State.guarded_some]

theorem exec_fbDiscard_of_not_owned {s : State} (ho : s.fbOwned = false) :
    exec .fbDiscard s = .next (refusedWith s (encode .fbDiscard) .fbNotOwned (.operation .fbDiscard)) := by
  rw [← State.raise_eq_refusedWith s (encode .fbDiscard) (by decide)]
  simp only [exec, execFbDiscard, ho, Bool.false_eq_true, if_false, State.guarded_some]

/-- After packs on every pixel, `FBW` is all ones (R129). -/
theorem PacksRun.fbw_of_packed {is : List Instr} {s t : State} (h : PacksRun is s t)
    (hall : ∀ x y, x < W → y < H → (lastIndex s.cfg is x y).isSome = true) : t.fbw = BitVec.allOnes NPIX :=
  fbw_eq_allOnes fun x y hx hy => by rw [h.written x y hx hy, hall x y hx hy, Bool.or_true]

/-- A packed pixel holds the index last packed into it. -/
theorem PacksRun.pixel_of_packed {is : List Instr} {s t : State} (h : PacksRun is s t)
    (hall : ∀ x y, x < W → y < H → (lastIndex s.cfg is x y).isSome = true) {x y : Nat} (hx : x < W) (hy : y < H) :
    lastIndex s.cfg is x y = some (t.fbPixel x y) := by
  obtain ⟨idx, hidx⟩ := Option.isSome_iff_exists.mp (hall x y hx hy)
  rw [h.pixel x y hx hy, hidx, Option.getD_some]

end Sys2Proof.Machine
end

section
/-! PROOFS. The obligations about the packer. -/

open Sys2Proof Sys2Proof.Machine

/-- Settles O13: neither operation is PACK_PIXEL, so that the response has no result. -/
theorem packIndexAndPadWriteOnePixel : Obligations.PackIndexAndPadWriteOnePixel := by
  intro s i idx x y hi ho hx hy
  obtain ⟨ht, hresult⟩ : packTarget s.cfg i = some (idx, x, y) ∧ packResult i idx = none := by
    rcases hi with rfl | ⟨rfl, rfl⟩ <;> exact ⟨rfl, rfl⟩
  refine ⟨_, exec_eq_packAnswered ht ho hx hy, s.packAnswered_pixelPacked idx _ hx hy, ?_⟩
  rw [hresult, State.packAnswered, Option.isSome_none, Bool.or_false]
  rfl

/-- Settles O14: the result of PACK_PIXEL is the index it packs. -/
theorem packPixelRoundTrip : Obligations.PackPixelRoundTrip := by
  intro s r g b x y ho hx hy
  have he := exec_eq_packAnswered (i := .packPixel r g b x y) rfl ho hx hy
  refine ⟨_, he, s.packAnswered_pixelPacked _ _ hx hy, ?_⟩
  rw [packResult_packPixel rfl, State.packAnswered, Option.isSome_some, Bool.or_true]
  rfl

/-- Settles O15, by the packer's three outcomes. -/
theorem packChecksInOrder : Obligations.PackChecksInOrder := by
  intro s i r g b idx x y hi
  obtain ⟨idx', ht⟩ : ∃ idx', packTarget s.cfg i = some (idx', x, y) := by
    rcases hi with rfl | rfl | rfl <;> exact ⟨_, rfl⟩
  rcases packFailure_cases s i x y with ⟨hnot, hf⟩ | ⟨ho, hoff, hf⟩ | ⟨ho, hon, -⟩
  · exact ⟨fun _ => exec_eq_refusedWith_of_packFailure ht hf (by decide), fun ho => by simp [hnot] at ho⟩
  · exact ⟨fun hnot => by simp [ho] at hnot, fun _ _ => exec_eq_refusedWith_of_packFailure ht hf (by decide)⟩
  · exact ⟨fun hnot => by simp [ho] at hnot, fun _ hoff => absurd hon hoff⟩

/-- Settles O16: the packs of two pixels commute and those of one overwrite; what is left are the results. -/
theorem packsCommuteOrOverwrite : Obligations.PacksCommuteOrOverwrite := by
  intro s i j idx idx' x y x' y' hi hj ho hwf hx hy hx' hy'
  have hij := runAll_two_packs hi hj ho hx hy hx' hy'
  rw [State.packAnswered_packAnswered] at hij
  refine ⟨fun hne => ?_, fun heq => ?_⟩
  · have hji := runAll_two_packs hj hi ho hx' hy' hx hy
    have hpixels : ¬ (x.toNat = x'.toNat ∧ y.toNat = y'.toNat) := fun ⟨ex, ey⟩ =>
      hne (Prod.ext (BitVec.eq_of_toNat_eq ex) (BitVec.eq_of_toNat_eq ey))
    rw [State.packAnswered_packAnswered, ← s.pack_comm idx idx' hwf hx hy hx' hy' hpixels, Bool.or_right_comm] at hji
    refine ⟨_, _, hij, hji, rfl, fun hni hnj => ?_⟩
    rw [packResult_of_ne hni, packResult_of_ne hnj]
  · obtain ⟨rfl, rfl⟩ := Prod.mk.inj heq
    rw [s.pack_overwrite idx idx' hwf hx hy] at hij
    exact ⟨_, _, hij, exec_eq_packAnswered hj ho hx hy, rfl⟩

/-- Settles O17: what a run of packs leaves, pixel by pixel. -/
theorem lastPackDecidesEachPixel : Obligations.LastPackDecidesEachPixel := by
  intro s is ho hp
  obtain ⟨t, hrun, h⟩ := runAll_packs ho hp
  have hdstate : t.dstate = s.dstate := by rw [h.frame]
  exact ⟨t, hrun, h.fbOwned.trans ho, h.trace, hdstate, fun x y hx hy => ⟨h.pixel x y hx hy, h.written x y hx hy⟩⟩

/-- Settles O18: every byte is its four pixels (O12), and each of them was packed. -/
theorem completePackingLeavesNothingDrawn : Obligations.CompletePackingLeavesNothingDrawn := by
  intro s is ho hd hp hall
  obtain ⟨u, halloc, -, -, hu⟩ := exec_fbAlloc_fresh ho hd
  have hcfg : u.cfg = s.cfg := by rw [hu]
  have howned : u.fbOwned = true := by rw [hu]
  rw [← hcfg] at hp hall ⊢
  obtain ⟨t, hrun, h⟩ := runAll_packs howned hp
  refine ⟨t, (runAll_cons halloc is).trans hrun, h.fbw_of_packed hall, fun y k hy hk => ?_⟩
  have packed {j : Nat} (hj : j < 4) : lastIndex u.cfg is (4 * k + j) y = some (t.fbPixel (4 * k + j) y) :=
    h.pixel_of_packed hall (by simp only [BPR, W] at *; omega) hy
  exact ⟨_, _, _, _, packed (j := 0) (by decide), packed (by decide), packed (by decide), packed (by decide),
    byteIsItsFourPixels t y k hy hk⟩

/-- Settles O19: an allocation that cannot fail allocates. -/
theorem fbAllocGivesAFreshFramebuffer : Obligations.FbAllocGivesAFreshFramebuffer :=
  fun _ ho hm => exec_fbAlloc_fresh ho (.inl hm)

/-- Settles O20, by the draw. -/
theorem fbAllocFollowsItsDraw : Obligations.FbAllocFollowsItsDraw := by
  intro s ho hm
  cases hd : Config.allocDraw s.allocDraws with
  | true =>
    obtain ⟨t, he, hfresh⟩ := exec_fbAlloc_fresh ho (.inr hd)
    exact ⟨t, he, by rwa [if_pos rfl]⟩
  | false => exact ⟨_, exec_fbAlloc_of_draw_false ho hm hd, by rw [if_neg (by decide)]⟩

/-- Settles O21, by the ownership. -/
theorem discardReleasesAndOwnershipFaults : Obligations.DiscardReleasesAndOwnershipFaults :=
  fun _ => ⟨exec_fbDiscard_of_owned, exec_fbDiscard_of_not_owned, exec_fbAlloc_of_owned⟩

end

section
/-! PROOFS. A busy wait whose samples fall short of the done level (R146): it goes on below the limit and times out at
it. -/

namespace Sys2Proof.Machine

theorem step_of_held {s : State} {h : Inflight} (hh : s.inflight = some h) :
    step s = .next (s.poll h (Config.busySample s.busySamples)) := by
  simp only [step, State.fetch, hh]

/-! ### The limit -/

theorem PollLimit.reached_polls_iff {k : Nat} (pos : 0 < k) (n : Nat) :
    PollLimit.reached (.polls k pos) n = true ↔ k ≤ n := decide_eq_true_iff

theorem PollLimit.not_reached_of_le {limit : PollLimit} {m n : Nat} (hmn : m ≤ n)
    (hn : PollLimit.reached limit n = false) : PollLimit.reached limit m = false := by
  cases limit with
  | inf => rfl
  | polls k pos =>
    rw [← Bool.not_eq_true, PollLimit.reached_polls_iff] at hn ⊢
    omega

/-! ### Samples that leave the operation held -/

/-- The hold after `n` more samples, each with its delay. -/
def Inflight.counted (h : Inflight) (n : Nat) : Inflight := { h with step := h.step + 2 * n, polls := h.polls + n }

theorem Inflight.counted_zero (h : Inflight) : h.counted 0 = h := rfl

theorem Inflight.counted_counted (h : Inflight) (m n : Nat) : (h.counted m).counted n = h.counted (m + n) := by
  simp only [Inflight.counted, Nat.mul_add, Nat.add_assoc]

theorem waitEvents_append (ls ls' : List Level) : waitEvents (ls ++ ls') = waitEvents ls ++ waitEvents ls' :=
  List.flatMap_append

/-- `s` after the samples `ls`, the operation `h` still held at its wait (R146). -/
def State.waited (s : State) (h : Inflight) (ls : List Level) : State := { s with
  inflight := some (h.counted ls.length)
  busySamples := s.busySamples + ls.length
  trace := s.trace ++ waitEvents ls }

theorem State.waited_inflight (s : State) (h : Inflight) (ls : List Level) :
    (s.waited h ls).inflight = some (h.counted ls.length) := rfl

theorem State.waited_nil {s : State} {h : Inflight} (hh : s.inflight = some h) : s.waited h [] = s := by
  rw [State.waited, List.length_nil, Inflight.counted_zero, ← hh, waitEvents, List.flatMap_nil, List.append_nil,
    Nat.add_zero]

theorem State.waited_waited (s : State) (h : Inflight) (ls ls' : List Level) :
    (s.waited h ls).waited (h.counted ls.length) ls' = s.waited h (ls ++ ls') := by
  simp only [State.waited, Inflight.counted_counted, waitEvents_append, List.length_append, List.append_assoc,
    Nat.add_assoc]

/-! ### One sample short of the done level -/

theorem State.poll_below_limit {s : State} {h : Inflight} {l : Level} (hl : l ≠ s.cfg.busyDoneLevel)
    (hr : PollLimit.reached s.cfg.busyTimeout (h.polls + 1) = false) :
    s.poll h l = s.waited h [l] := by
  rcases s.poll_cases h l with ⟨heq, _⟩ | ⟨_, hreached, _⟩ | ⟨_, _, e⟩
  · exact absurd heq hl
  · exact absurd (hr.symm.trans hreached) Bool.false_ne_true
  · exact e

theorem State.poll_at_limit {s : State} {h : Inflight} {l : Level} (hl : l ≠ s.cfg.busyDoneLevel)
    (hr : PollLimit.reached s.cfg.busyTimeout (h.polls + 1) = true) :
    s.poll h l =
      ({ s with busySamples := s.busySamples + 1, trace := s.trace ++ [.busy l] } : State).timeout h := by
  rcases s.poll_cases h l with ⟨heq, _⟩ | ⟨_, _, e⟩ | ⟨_, hbelow, _⟩
  · exact absurd heq hl
  · exact e
  · exact absurd (hbelow.symm.trans hr) Bool.false_ne_true

/-- REFRESH alone keeps the framebuffer's ownership through a timeout (R206). -/
theorem timeoutReleases_iff (p : HoldPoint) :
    timeoutReleases p.instr.operation = true ↔ ¬ (p = .refreshFirst ∨ p = .refreshSecond) := by
  cases p <;> simp [timeoutReleases, HoldPoint.instr, Instr.operation]

/-! ### A run of samples -/

theorem State.pollAll_cons {s : State} {h : Inflight} (hh : s.inflight = some h) (l : Level) (ls : List Level) :
    s.pollAll (l :: ls) = (s.poll h l).pollAll ls := by
  simp only [State.pollAll, hh]

theorem State.pollAll_of_not_held {s : State} (hn : s.inflight = none) (ls : List Level) : s.pollAll ls = s := by
  cases ls <;> simp only [State.pollAll, hn]

theorem State.pollAll_append (s : State) (ls ls' : List Level) :
    s.pollAll (ls ++ ls') = (s.pollAll ls).pollAll ls' := by
  induction ls generalizing s with
  | nil => rfl
  | cons l ls ih =>
    cases hh : s.inflight with
    | none => rw [State.pollAll_of_not_held hh, State.pollAll_of_not_held hh, State.pollAll_of_not_held hh]
    | some h => rw [List.cons_append, State.pollAll_cons hh, State.pollAll_cons hh, ih]

/-- Samples short of the done level and of the limit leave the operation held at the same wait, each sample counted and
followed by its delay (R146). -/
theorem State.pollAll_below_limit {s : State} {h : Inflight} {ls : List Level} (hh : s.inflight = some h)
    (hne : ∀ l ∈ ls, l ≠ s.cfg.busyDoneLevel)
    (hr : PollLimit.reached s.cfg.busyTimeout (h.polls + ls.length) = false) :
    s.pollAll ls = s.waited h ls := by
  induction ls generalizing s h with
  | nil => exact (State.waited_nil hh).symm
  | cons l ls ih =>
    obtain ⟨hl, hls⟩ := List.forall_mem_cons.mp hne
    rw [List.length_cons, Nat.add_comm ls.length 1, ← Nat.add_assoc] at hr
    have hfirst := PollLimit.not_reached_of_le (Nat.le_add_right _ _) hr
    calc s.pollAll (l :: ls)
      _ = (s.waited h [l]).pollAll ls := by rw [State.pollAll_cons hh, State.poll_below_limit hl hfirst]
      _ = (s.waited h [l]).waited (h.counted 1) ls := ih (s.waited_inflight h [l]) hls hr
      _ = s.waited h (l :: ls) := s.waited_waited h [l] ls

end Sys2Proof.Machine
end

section
/-! PROOFS. The obligations about the busy wait. -/

open Sys2Proof Sys2Proof.Machine

/-- Settles O7: below the limit the sample is followed by its delay, and at the limit nothing follows it. -/
theorem heldBlockAcceptsNothingAndSendsNothing : Obligations.HeldBlockAcceptsNothingAndSendsNothing := by
  intro s h hh
  refine ⟨step_of_held hh, fun l => ⟨State.poll_requests s h l, fun hl => ?_⟩⟩
  cases hr : PollLimit.reached s.cfg.busyTimeout (h.polls + 1) with
  | true => exact .inl (by rw [State.poll_at_limit hl hr, State.timeout_trace])
  | false => exact .inr (by rw [State.poll_below_limit hl hr]; rfl)

/-- Settles O31: the samples before the last leave the wait one short of its limit, where the last one times out. -/
theorem timeoutAtTheLimit : Obligations.TimeoutAtTheLimit := by
  intro s h k pos ls l hh hlimit hne hk
  obtain ⟨hls, hlast⟩ := List.forall_mem_append.mp hne
  have hl : l ≠ s.cfg.busyDoneLevel := hlast l List.mem_cons_self
  have hbelow : PollLimit.reached s.cfg.busyTimeout (h.polls + ls.length) = false := by
    rw [hlimit, ← Bool.not_eq_true, PollLimit.reached_polls_iff]
    omega
  have hreached : PollLimit.reached s.cfg.busyTimeout (h.polls + ls.length + 1) = true := by
    rw [hlimit, PollLimit.reached_polls_iff]
    exact hk.ge
  have htimeout := State.poll_at_limit (s := s.waited h ls) (h := h.counted ls.length) hl hreached
  rw [State.pollAll_append, State.pollAll_below_limit hh hls hbelow, State.pollAll_cons (s.waited_inflight h ls),
    htimeout, State.timeout_eq]
  simp only [State.pollAll, State.waited, Inflight.counted, timeoutReleases_iff, ite_not, List.append_assoc,
    Nat.add_assoc]

/-- Settles O32: no number of samples reaches the limit of a wait without one. -/
theorem hangWithoutATimeout : Obligations.HangWithoutATimeout :=
  fun _ _ _ hh hlimit hne => State.pollAll_below_limit hh hne (by rw [hlimit]; rfl)

end

section
/-! PROOFS. What ends a busy wait (R146): samples short of a timeout and then the done level, wait by wait, up to the
end of WRITE_FRAMEBUFFER, REFRESH and CLEAR. -/

namespace Sys2Proof.Machine

/-! ### The done level after some samples -/

/-- `s` after the samples `ls` and the done level, before the operation `h` goes on. -/
def State.doneAfter (s : State) (h : Inflight) (ls : List Level) : State := { s with
  inflight := some (h.counted ls.length)
  busySamples := s.busySamples + (ls.length + 1)
  trace := s.trace ++ (waitEvents ls ++ [.busy s.cfg.busyDoneLevel]) }

theorem State.poll_waited_done (s : State) (h : Inflight) (ls : List Level) :
    (s.waited h ls).poll (h.counted ls.length) s.cfg.busyDoneLevel =
      (s.doneAfter h ls).resume (h.counted ls.length) (s.waited h ls) := by
  have hdone := (s.waited h ls).poll_busyDoneLevel (h.counted ls.length)
  simpa only [State.waited, State.doneAfter, List.append_assoc, Nat.add_assoc] using hdone

/-- A wait with no sample taken yet ends at the done level, and the operation goes on from there. -/
theorem State.pollAll_done {s : State} {p : HoldPoint} {n : Nat} {ls : List Level}
    (hh : s.inflight = some ⟨p, n, 0⟩) (hw : Waits s.cfg ls) (rest : List Level) :
    s.pollAll (ls ++ s.cfg.busyDoneLevel :: rest) =
      ((s.doneAfter ⟨p, n, 0⟩ ls).resume ⟨p, n + 2 * ls.length, ls.length⟩ (s.waited ⟨p, n, 0⟩ ls)).pollAll rest := by
  have hcounted : (⟨p, n, 0⟩ : Inflight).counted ls.length = ⟨p, n + 2 * ls.length, ls.length⟩ := by
    simp only [Inflight.counted, Nat.zero_add]
  have hbelow : PollLimit.reached s.cfg.busyTimeout (0 + ls.length) = false := by
    rw [Nat.zero_add]
    exact hw.within
  rw [State.pollAll_append, State.pollAll_below_limit hh hw.notDone hbelow,
    State.pollAll_cons (s.waited_inflight _ ls), State.poll_waited_done, hcounted]

/-! ### How each operation goes on -/

theorem State.resume_of_writeFramebuffer {s since : State} {h : Inflight} (hp : h.point = .writeFramebuffer) :
    s.resume h since = { s with
      dc := .high, cs := s.cfg.csActiveLevel.not, trace := s.trace ++ ramEvents s.cfg s.fbBytes
      fbOwned := false, inflight := none, err := .ok
      responses := s.responses ++ [{ status := .ok, result := 0#2, resultValid := false }] } := by
  simp only [State.resume, hp, State.transmitTail_eq, State.complete_eq]

theorem State.resume_of_clearFirst {s since : State} {h : Inflight} {c : Byte} (hp : h.point = .clearFirst c) :
    ∃ n, s.resume h since = { s with
      dc := .high, cs := s.cfg.csActiveLevel.not
      trace := s.trace ++ (ramEvents s.cfg s.fbBytes ++ entryEvents (refreshEntry s.cfg))
      fbOwned := false, dstate := .refreshing, inflight := some ⟨.clearSecond c, n, 0⟩ } := by
  rcases s.resume_cases h since with ⟨hp', _⟩ | ⟨_, _, hp', _⟩ | ⟨c', n, hp', _, e⟩ | ⟨hp', _⟩
  · simp [hp] at hp'
  · simp [hp] at hp'
  · obtain rfl : c = c' := by simpa [hp] using hp'
    exact ⟨n, e⟩
  · simp [hp] at hp'

/-- The wait after a refresh entry: REFRESH's first or CLEAR's second, with the wait that follows power off (R168). -/
def PowersOff (p p' : HoldPoint) : Prop :=
  (p = .refreshFirst ∧ p' = .refreshSecond) ∨ ∃ c, p = .clearSecond c ∧ p' = .clearThird c

theorem State.resume_of_powersOff {s since : State} {h : Inflight} {p' : HoldPoint} (hp : PowersOff h.point p') :
    ∃ n, s.resume h since = { s with
      dc := .high, cs := s.cfg.csActiveLevel.not, trace := s.trace ++ entryEvents (powerOffEntry s.cfg)
      inflight := some ⟨p', n, 0⟩ } := by
  rcases hp with ⟨hp, rfl⟩ | ⟨c, hp, rfl⟩ <;>
    exact ⟨_, by simp only [State.resume, hp, State.sendEntry_eq, powerOffEntry]; rfl⟩

theorem State.resume_of_poweredOff {s since : State} {h : Inflight} {p : HoldPoint} (hp : PowersOff p h.point) :
    s.resume h since = { s with
      dstate := .ready, inflight := none, err := .ok
      responses := s.responses ++ [{ status := .ok, result := 0#2, resultValid := false }] } := by
  rcases hp with ⟨_, hp⟩ | ⟨c, _, hp⟩ <;> simp only [State.resume, hp, State.complete_eq, State.setDState]

/-! ### The waits of an operation -/

/-- WRITE_FRAMEBUFFER's wait, and the frame on the bus (R165, R166). -/
theorem State.pollAll_writeFramebuffer_wait {s : State} {n : Nat} {ls : List Level} {bs : List Byte}
    (hh : s.inflight = some ⟨.writeFramebuffer, n, 0⟩) (hw : Waits s.cfg ls) (hbytes : s.fbBytes = bs) :
    s.pollAll (ls ++ [s.cfg.busyDoneLevel]) = { s with
      fbOwned := false, inflight := none, dc := .high, cs := s.cfg.csActiveLevel.not
      busySamples := s.busySamples + (ls.length + 1)
      trace := s.trace ++ (waitEvents ls ++ (.busy s.cfg.busyDoneLevel :: ramEvents s.cfg bs))
      err := .ok
      responses := s.responses ++ [{ status := .ok, result := 0#2, resultValid := false }] } := by
  have hdoneBytes : (s.doneAfter ⟨.writeFramebuffer, n, 0⟩ ls).fbBytes = bs :=
    (State.fbBytes_eq_of_fbByte_eq (by rfl)).trans hbytes
  rw [State.pollAll_done hh hw [], State.resume_of_writeFramebuffer rfl, hdoneBytes]
  simp only [State.pollAll, State.doneAfter, List.append_assoc, List.cons_append, List.nil_append]

/-- The wait after the refresh entry, power off, and the wait after that: the end in `Ready` of REFRESH and of CLEAR
(R168, R171). -/
theorem State.pollAll_powerOff_waits {s : State} {p p' : HoldPoint} {n : Nat} {ls ls' : List Level}
    (hh : s.inflight = some ⟨p, n, 0⟩) (hp : PowersOff p p') (hw : Waits s.cfg ls) (hw' : Waits s.cfg ls') :
    s.pollAll (ls ++ s.cfg.busyDoneLevel :: (ls' ++ [s.cfg.busyDoneLevel])) = { s with
      dstate := .ready, inflight := none, dc := .high, cs := s.cfg.csActiveLevel.not
      busySamples := s.busySamples + (ls.length + 1) + (ls'.length + 1)
      trace := s.trace ++ (waitEvents ls ++ (.busy s.cfg.busyDoneLevel ::
        (entryEvents (powerOffEntry s.cfg) ++ (waitEvents ls' ++ [.busy s.cfg.busyDoneLevel]))))
      err := .ok
      responses := s.responses ++ [{ status := .ok, result := 0#2, resultValid := false }] } := by
  rw [State.pollAll_done hh hw]
  obtain ⟨m, hfirst⟩ := State.resume_of_powersOff (s := s.doneAfter ⟨p, n, 0⟩ ls)
    (h := ⟨p, n + 2 * ls.length, ls.length⟩) (since := s.waited ⟨p, n, 0⟩ ls) hp
  rw [hfirst]
  generalize hu : ({ s.doneAfter ⟨p, n, 0⟩ ls with
    dc := _, cs := _, trace := _, inflight := some ⟨p', m, 0⟩ } : State) = u
  have hcfg : u.cfg = s.cfg := by rw [← hu]; rfl
  have hheld : u.inflight = some ⟨p', m, 0⟩ := by rw [← hu]
  rw [← hcfg, State.pollAll_done hheld (by rw [hcfg]; exact hw') [], State.resume_of_poweredOff hp, ← hu]
  simp only [State.pollAll, State.doneAfter, List.append_assoc, List.cons_append, List.nil_append]

/-- CLEAR's three waits: the frame and the refresh entry after the first, then as REFRESH (R171, R172). -/
theorem State.pollAll_clear_waits {s : State} {c : Byte} {n : Nat} {ls ls' ls'' : List Level} {bs : List Byte}
    (hh : s.inflight = some ⟨.clearFirst c, n, 0⟩) (hw : Waits s.cfg ls) (hw' : Waits s.cfg ls')
    (hw'' : Waits s.cfg ls'') (hbytes : s.fbBytes = bs) :
    s.pollAll (ls ++ s.cfg.busyDoneLevel :: (ls' ++ s.cfg.busyDoneLevel :: (ls'' ++ [s.cfg.busyDoneLevel]))) = { s with
      fbOwned := false, dstate := .ready, inflight := none, dc := .high, cs := s.cfg.csActiveLevel.not
      busySamples := s.busySamples + (ls.length + 1) + (ls'.length + 1) + (ls''.length + 1)
      trace := s.trace ++ (waitEvents ls ++ (.busy s.cfg.busyDoneLevel ::
        (ramEvents s.cfg bs ++ (entryEvents (refreshEntry s.cfg) ++ (waitEvents ls' ++
          (.busy s.cfg.busyDoneLevel :: (entryEvents (powerOffEntry s.cfg) ++ (waitEvents ls'' ++
            [.busy s.cfg.busyDoneLevel]))))))))
      err := .ok
      responses := s.responses ++ [{ status := .ok, result := 0#2, resultValid := false }] } := by
  have hdoneBytes : (s.doneAfter ⟨.clearFirst c, n, 0⟩ ls).fbBytes = bs :=
    (State.fbBytes_eq_of_fbByte_eq (by rfl)).trans hbytes
  rw [State.pollAll_done hh hw]
  obtain ⟨m, hfirst⟩ := State.resume_of_clearFirst (s := s.doneAfter ⟨.clearFirst c, n, 0⟩ ls)
    (h := ⟨.clearFirst c, n + 2 * ls.length, ls.length⟩) (since := s.waited ⟨.clearFirst c, n, 0⟩ ls) rfl
  rw [hfirst, hdoneBytes]
  generalize hu : ({ s.doneAfter ⟨.clearFirst c, n, 0⟩ ls with
    dc := _, cs := _, trace := _, fbOwned := _, dstate := _, inflight := some ⟨.clearSecond c, m, 0⟩ } : State) = u
  have hcfg : u.cfg = s.cfg := by rw [← hu]; rfl
  have hheld : u.inflight = some ⟨.clearSecond c, m, 0⟩ := by rw [← hu]
  rw [← hcfg, State.pollAll_powerOff_waits hheld (.inr ⟨c, rfl, rfl⟩) (by rw [hcfg]; exact hw')
    (by rw [hcfg]; exact hw''), ← hu]
  simp only [State.doneAfter, List.append_assoc, List.cons_append, List.nil_append]

end Sys2Proof.Machine
end

section
/-! PROOFS. Each driver operation as one whole record up to its end or its first wait (R161 to R172), and its refusal in
a state it does not list (R160(b)). -/

namespace Sys2Proof.Machine

theorem length_entryEvents (e : Entry) : (entryEvents e).length = 1 + e.data.length := by
  rw [entryEvents, List.length_cons, List.length_map, Nat.add_comm]

theorem dcAfter_append_singleton (dc : Level) (es : List Entry) (e : Entry) :
    dcAfter dc (es ++ [e]) = if e.data = [] then .low else .high := by
  induction es generalizing dc with
  | nil => rfl
  | cons e' es ih => exact ih _

/-- The head of `transmit()` up to its wait: the start-transmission entry, which is all the held operation has emitted
(R29, R166). -/
theorem State.transmitHead_holdAt_eq {s since : State} (p : HoldPoint) (htrace : since.trace = s.trace) :
    s.transmitHead.holdAt p 0 since = { s with
      dc := if s.cfg.startTx.data = [] then .low else .high
      cs := s.cfg.csActiveLevel.not
      trace := s.trace ++ entryEvents s.cfg.startTx
      inflight := some ⟨p, 1 + s.cfg.startTx.data.length, 0⟩ } := by
  rw [State.holdAt, State.transmitHead_eq, State.sendEntry_eq]
  simp only [htrace, List.length_append, Nat.add_sub_cancel_left, Nat.zero_add, length_entryEvents]

theorem exec_resetPanel_eq (s : State) :
    exec .resetPanel s = .next { s with
      dstate := .awaitingReset, rst := s.cfg.rstAssertLevel, trace := s.trace ++ resetEvents, err := .ok
      responses := s.responses ++ [{ status := .ok, result := 0#2, resultValid := false }] } := by
  rw [exec_resetPanel, State.resetPulse_eq, State.respond_none_eq, State.setDState]

theorem exec_initializePanel_eq {s : State} (hs : s.dstate = .awaitingReset) :
    exec .initializePanel s = .next { s with
      dstate := .ready, dc := dcAfter s.dc s.cfg.initSeq
      cs := if s.cfg.initSeq = [] then s.cs else s.cfg.csActiveLevel.not
      trace := s.trace ++ s.cfg.initSeq.flatMap entryEvents, err := .ok
      responses := s.responses ++ [{ status := .ok, result := 0#2, resultValid := false }] } := by
  rw [exec_initializePanel_of_awaitingReset hs, State.sendEntries_eq, State.respond_none_eq, State.setDState]

theorem exec_writeFramebuffer_eq {s : State} (hs : s.dstate = .ready) (ho : s.fbOwned = true) :
    exec .writeFramebuffer s = .next { s with
      dstate := .transmitting, dc := if s.cfg.startTx.data = [] then .low else .high
      cs := s.cfg.csActiveLevel.not
      trace := s.trace ++ entryEvents s.cfg.startTx
      inflight := some ⟨.writeFramebuffer, 1 + s.cfg.startTx.data.length, 0⟩ } := by
  rw [exec_writeFramebuffer_of_ready hs ho, State.transmitHead_holdAt_eq (since := s) _ (State.setDState_trace ..).symm,
    State.setDState]

theorem exec_refreshPanel_eq {s : State} (hs : s.dstate = .transmitting) :
    exec .refreshPanel s = .next { s with
      dstate := .refreshing, dc := .high, cs := s.cfg.csActiveLevel.not
      trace := s.trace ++ entryEvents (refreshEntry s.cfg)
      inflight := some ⟨.refreshFirst, 2, 0⟩ } := by
  rw [exec_refreshPanel_of_transmitting hs, State.setDState, State.sendEntry_eq, State.holdAt]
  simp [length_entryEvents, refreshEntry]

theorem exec_sleepPanel_eq {s : State} (hs : s.dstate = .ready) :
    exec .sleepPanel s = .next { s with
      dstate := .sleeping, dc := if s.cfg.deepSleep.data = [] then .low else .high
      cs := s.cfg.csActiveLevel.not
      trace := s.trace ++ (entryEvents (powerOffEntry s.cfg) ++ (entryEvents s.cfg.deepSleep ++ [.delay 2000]))
      err := .ok
      responses := s.responses ++ [{ status := .ok, result := 0#2, resultValid := false }] } := by
  simp only [exec, execSleepPanel, stateFailure, legalIn, Instr.operation, hs, decide_true, if_true, State.guarded_none,
    State.sendEntry_eq, State.delay, State.emit, State.setDState, State.respond_none_eq, sleepSettleMs,
    List.append_assoc]

theorem exec_clearPanel_eq {s : State} (hs : s.dstate = .ready) (c : Byte) :
    exec (.clearPanel c) s = .next { s.fillFb c with
      fbw := BitVec.allOnes NPIX, fbOwned := true, dstate := .transmitting
      dc := if s.cfg.startTx.data = [] then .low else .high
      cs := s.cfg.csActiveLevel.not
      trace := s.trace ++ entryEvents s.cfg.startTx
      inflight := some ⟨.clearFirst c, 1 + s.cfg.startTx.data.length, 0⟩ } := by
  rw [exec_clearPanel_of_ready hs]
  exact congrArg Host.Outcome.next (State.transmitHead_holdAt_eq _ (by rfl))

theorem State.fbBytes_of_forall_eq {s : State} {c : Byte} (h : ∀ a, a < NFB → s.fbByte a = c) :
    s.fbBytes = fbAddresses.map fun _ => c :=
  List.map_congr_left fun a ha => h a ((mem_fbAddresses a).mp ha)

theorem State.fbBytes_getElem? (s : State) {a : Nat} (ha : a < NFB) : s.fbBytes[a]? = some (s.fbByte a) := by
  unfold State.fbBytes fbAddresses
  rw [List.getElem?_map, List.getElem?_range ha]
  rfl

/-- An operation in a state it does not list is refused before any other check (R160(b), R202, R207). -/
theorem exec_eq_refusedWith_of_not_legalIn {s : State} {i : Instr} (hl : legalIn i.operation s.dstate = false) :
    exec i s = .next (refusedWith s (encode i) .protocolState (.operationState i.operation s.dstate)) := by
  have hfail : stateFailure s i = some (.protocolState, .operationState i.operation s.dstate) := by
    rcases stateFailure_cases s i with ⟨hlegal, _⟩ | ⟨_, hfail⟩
    · cases hlegal.symm.trans hl
    · exact hfail
  rw [← State.raise_eq_refusedWith s _ (by decide)]
  cases i with
  | initializePanel => simp only [exec, execInitializePanel, hfail, State.guarded_some]
  | writeFramebuffer => simp only [exec, execWriteFramebuffer, hfail, Option.some_or, State.guarded_some]
  | refreshPanel => simp only [exec, execRefreshPanel, hfail, State.guarded_some]
  | sleepPanel => simp only [exec, execSleepPanel, hfail, State.guarded_some]
  | clearPanel c => simp only [exec, execClearPanel, hfail, State.guarded_some]
  | _ => cases hl

theorem exec_writeFramebuffer_of_not_owned {s : State} (hs : s.dstate = .ready) (ho : s.fbOwned = false) :
    exec .writeFramebuffer s =
      .next (refusedWith s (encode .writeFramebuffer) .fbNotOwned (.operation .writeFramebuffer)) := by
  rw [← State.raise_eq_refusedWith s _ (by decide)]
  simp [exec, execWriteFramebuffer, stateFailure, legalIn, Instr.operation, hs, ho]

end Sys2Proof.Machine
end

section
/-! PROOFS. The state graph (R173): what leaves `Sleeping`, and what enters `Ready`. -/

namespace Sys2Proof.Machine

theorem Presented.requests_eq {s : State} {i : Instr} (h : Presented s i) : ∃ rest, s.requests = encode i :: rest := by
  obtain ⟨q, rest, hr, hd⟩ := h.word
  exact ⟨rest, by rw [hr, decodeThenEncodeGivesTheWord q i hd]⟩

/-- An operation that leaves `Sleeping` is RESET (R170). -/
theorem ExecOutcome.leaves_sleeping {s t : State} {i : Instr} (h : ExecOutcome s i t) (hs : s.dstate = .sleeping)
    (ht : t.dstate ≠ .sleeping) : i = .resetPanel ∧ t.dstate = .awaitingReset := by
  cases h with
  | pulsed => exact ⟨rfl, rfl⟩
  | initialized state | transmitting state | refreshing state | clearing _ state => simp [hs] at state
  | slept => exact absurd rfl ht
  | _ => exact absurd (by simp [hs]) ht

/-- An operation that enters `Ready` before any wait is INITIALIZE in `AwaitingReset` (R163). -/
theorem ExecOutcome.enters_ready {s t : State} {i : Instr} (h : ExecOutcome s i t) (hs : s.dstate ≠ .ready)
    (ht : t.dstate = .ready) : i = .initializePanel ∧ s.dstate = .awaitingReset := by
  cases h with
  | initialized state => exact ⟨rfl, state⟩
  | _ => simp [hs] at ht

/-- A sample that enters `Ready` is the done level in REFRESH's second wait or CLEAR's third (R168, R171). -/
theorem State.poll_enters_ready {s : State} {h : Inflight} {l : Level} (hs : s.dstate ≠ .ready)
    (ht : (s.poll h l).dstate = .ready) :
    (h.point = .refreshSecond ∨ ∃ c, h.point = .clearThird c) ∧ l = s.cfg.busyDoneLevel := by
  rcases s.poll_cases h l with ⟨hl, e⟩ | ⟨_, _, e⟩ | ⟨_, _, e⟩ <;> rw [e] at ht
  · refine ⟨?_, hl⟩
    rcases State.resume_cases _ h s with ⟨_, e⟩ | ⟨_, _, _, _, e⟩ | ⟨_, _, _, _, e⟩ | ⟨hp, _⟩
    · rw [e] at ht; exact absurd ht hs
    · rw [e] at ht; exact absurd ht hs
    · rw [e] at ht; cases ht
    · exact hp
  · rw [State.timeout_eq] at ht; cases ht
  · exact absurd ht hs

end Sys2Proof.Machine
end

section
/-! PROOFS. The obligations about the driver. -/

open Sys2Proof Sys2Proof.Machine

/-- Settles O22: the reset pulse is its six events, and RESET writes nothing else. -/
theorem resetFromEveryState : Obligations.ResetFromEveryState := exec_resetPanel_eq

/-- Settles O23; the last entry's last transfer decides the lines. -/
theorem initializeSendsTheTable : Obligations.InitializeSendsTheTable := by
  intro s hs
  refine ⟨_, exec_initializePanel_eq hs, rfl, fun hnil => ?_, fun es e hlast => ?_⟩
  · simp [hnil, dcAfter]
  · simp [hlast, dcAfter_append_singleton]

/-- Settles O24: the head of the transmission, then the wait and the frame. -/
theorem writeFramebufferSendsEveryByte : Obligations.WriteFramebufferSendsEveryByte := by
  intro s ls hs ho hw
  refine ⟨_, exec_writeFramebuffer_eq hs ho, rfl, ?_, s.fbBytes_length, fun a ha => s.fbBytes_getElem? ha⟩
  refine Eq.trans (State.pollAll_writeFramebuffer_wait rfl hw (State.fbBytes_eq_of_fbByte_eq (s := s) rfl)) ?_
  rw [List.append_assoc]

/-- Settles O25: the refresh entry, then the two waits around power off. -/
theorem refreshRunsItsTwoWaits : Obligations.RefreshRunsItsTwoWaits := by
  intro s ls ls' hs hw hw'
  refine ⟨_, exec_refreshPanel_eq hs, rfl, Eq.trans (State.pollAll_powerOff_waits rfl (.inl ⟨rfl, rfl⟩) hw hw') ?_⟩
  rw [List.append_assoc]

/-- Settles O26, by the record of SLEEP. -/
theorem sleepCommandsDeepSleep : Obligations.SleepCommandsDeepSleep :=
  fun _ hs => ⟨_, exec_sleepPanel_eq hs, rfl⟩

/-- Settles O27: the fill and the head of the transmission, then the three waits. -/
theorem clearShowsOneByteEverywhere : Obligations.ClearShowsOneByteEverywhere := by
  intro s c ls ls' ls'' hs hw hw' hw''
  have hfilled : ∀ a, a < NFB → (s.fillFb c).fbByte a = c := fun a ha => (s.fbByte_fillFb c a).trans (if_pos ha)
  refine ⟨_, _, exec_clearPanel_eq hs c, rfl, hfilled, 
    State.pollAll_clear_waits rfl hw hw' hw'' (State.fbBytes_of_forall_eq hfilled), hfilled, ?_⟩
  rw [List.append_assoc]
  rfl

/-- Settles O29: INITIALIZE finds the state that RESET leaves. -/
theorem recoveryReachesReady : Obligations.RecoveryReachesReady := fun s =>
  ⟨_, (runAll_cons (exec_resetPanel_eq s) _).trans (runAll_cons (exec_initializePanel_eq rfl) []),
    rfl, rfl, rfl, rfl, rfl, rfl, rfl, rfl, rfl⟩

/-- Settles O30: each of the five operations lists one state. -/
theorem driverChecksInOrder : Obligations.DriverChecksInOrder := by
  refine ⟨fun s i c d hmem hne => exec_eq_refusedWith_of_not_legalIn ?_,
    fun s => exec_writeFramebuffer_of_not_owned⟩
  simp only [List.mem_cons, List.not_mem_nil, or_false, Prod.mk.injEq] at hmem
  rcases hmem with ⟨rfl, rfl⟩ | ⟨rfl, rfl⟩ | ⟨rfl, rfl⟩ | ⟨rfl, rfl⟩ | ⟨rfl, rfl⟩ <;> exact decide_eq_false hne

/-- Settles O35: a refused word leaves DSTATE, and of the operations RESET alone leaves `Sleeping`. -/
theorem onlyResetLeavesSleeping : Obligations.OnlyResetLeavesSleeping := by
  intro s t hn hs h hne
  cases stepOutcome_of_step h with
  | sampled p held => simp [hn] at held
  | idle => exact absurd hs hne
  | illegal q => exact absurd hs hne
  | ran i presented outcome =>
    obtain ⟨rfl, ht⟩ := outcome.leaves_sleeping hs hne
    obtain ⟨rest, hr⟩ := presented.requests_eq
    exact ⟨rest, hr, ht⟩

/-- Settles O36: a presented operation enters `Ready`, or a sample does. -/
theorem readyIsEnteredOnlyThree : Obligations.ReadyIsEnteredOnlyThree := by
  intro s t h hs ht
  cases stepOutcome_of_step h with
  | sampled p held => exact .inr ⟨p, held, State.poll_enters_ready hs ht⟩
  | idle => exact absurd ht hs
  | illegal q => exact absurd ht hs
  | ran i presented outcome =>
    obtain ⟨rfl, hd⟩ := outcome.enters_ready hs ht
    obtain ⟨rest, hr⟩ := presented.requests_eq
    exact .inl ⟨presented.unheld, hd, rest, hr⟩

end

section
/-! PROOFS. Which steps answer with a fault (R200 to R203): a presented word alone is refused with one, and a status
that ends a wait is OK or an error. -/

namespace Sys2Proof.Machine

/-- From `s` to `t` no response with a fault was given. -/
def AnswersNoFault (s t : State) : Prop :=
  ∀ a : Response, t.responses = s.responses ++ [a] → a.status.isFault = false

theorem AnswersNoFault.of_same {s t : State} (h : t.responses = s.responses) : AnswersNoFault s t :=
  fun a ha => by simp [h] at ha

theorem AnswersNoFault.of_answer {s t : State} {st : Status} {r : Option (BitVec 2)} (hst : st.isFault = false)
    (h : t.responses = s.responses ++ [responseOf st r]) : AnswersNoFault s t := by
  intro a ha
  obtain rfl : responseOf st r = a := List.singleton_inj.mp (List.append_cancel_left (h.symm.trans ha))
  exact hst

/-- An operation is refused with a fault before its first effect (R202), or answers none: a failed allocation is an
error (R200). -/
theorem ExecOutcome.raises_or_answersNoFault {s t : State} {i : Instr} (h : ExecOutcome s i t) :
    (∃ st info, st.isFault = true ∧ t = s.raise (encode i) st info) ∨ AnswersNoFault s t := by
  cases h with
  | refused _ st info fault => exact .inl ⟨st, info, fault, rfl⟩
  | notAllocated => exact .inr (.of_answer (st := .allocationError) (r := none) (by decide) (by rfl))
  | transmitting | refreshing | clearing => exact .inr (.of_same (by simp))
  | quantized _ _ _ _ _ idx | packedPixel _ _ _ _ _ idx =>
    exact .inr (.of_answer (st := .ok) (r := some idx) (by decide) (by simp))
  | _ => exact .inr (.of_answer (st := .ok) (r := none) (by decide) (by simp))

theorem State.resume_answersNoFault (s : State) (h : Inflight) (since : State) :
    AnswersNoFault s (s.resume h since) := by
  rcases s.resume_cases h since with ⟨_, e⟩ | ⟨_, _, _, _, e⟩ | ⟨_, _, _, _, e⟩ | ⟨_, e⟩ <;> rw [e]
  · exact .of_answer (st := .ok) (r := none) (by decide) rfl
  · exact .of_same rfl
  · exact .of_same rfl
  · exact .of_answer (st := .ok) (r := none) (by decide) rfl

/-- A sample answers OK, or DEVICE_TIMEOUT, which is an error (R200, R206). -/
theorem State.poll_answersNoFault (s : State) (h : Inflight) (l : Level) : AnswersNoFault s (s.poll h l) := by
  rcases s.poll_cases h l with ⟨_, e⟩ | ⟨_, _, e⟩ | ⟨_, _, e⟩ <;> rw [e]
  · exact State.resume_answersNoFault _ h s
  · exact .of_answer (st := .deviceTimeout) (r := none) (by decide) (State.timeout_responses _ h)
  · exact .of_same rfl

/-- From `s` to `t` the presented word `q` was taken and refused with the fault `st`, and nothing else was done (R202,
R203). -/
structure RefusedRequest (s t : State) (q : RequestWord) (st : Status) (info : ErrInfo) : Prop where
  unheld : s.inflight = none
  word : ∃ rest, s.requests = q :: rest
  fault : st.isFault = true
  next : t = s.accept.raise q st info

/-- Every step refuses the presented word with a fault, or answers none. -/
theorem StepOutcome.refuses_or_answersNoFault {s t : State} (h : StepOutcome s t) :
    (∃ q st info, RefusedRequest s t q st info) ∨ AnswersNoFault s t := by
  cases h with
  | sampled p => exact .inr (s.poll_answersNoFault p _)
  | idle => exact .inr (.of_same rfl)
  | illegal q rest _ unheld word => exact .inl ⟨q, _, _, unheld, ⟨rest, word⟩, by decide, rfl⟩
  | ran i presented outcome =>
    rcases outcome.raises_or_answersNoFault with ⟨st, info, fault, ht⟩ | hno
    · exact .inl ⟨encode i, st, info, presented.unheld, presented.requests_eq, fault, ht⟩
    · exact .inr hno

/-- The refusal of a presented word, field by field. -/
theorem RefusedRequest.eq {s t : State} {q : RequestWord} {st : Status} {info : ErrInfo}
    (h : RefusedRequest s t q st info) : ∃ rest, s.requests = q :: rest ∧
      t = { s with
        requests := rest, err := st, faulted := true
        errlog := s.errlog ++ [{ request := q, status := st, info := info }]
        responses := s.responses ++ [{ status := st, result := 0#2, resultValid := false }] } := by
  obtain ⟨hn, ⟨rest, hr⟩, hf, rfl⟩ := h
  refine ⟨rest, hr, ?_⟩
  rw [State.accept_eq hr, State.raise_eq, faultedAfter, hf, Bool.or_true, ← hn]

end Sys2Proof.Machine
end

section
/-! PROOFS. The obligation about faults. -/

open Sys2Proof Sys2Proof.Machine

/-- Settles O33: a step that answers with a fault has refused the presented word, and the answer is the refusal's. -/
theorem faultLeavesEverythingElse : Obligations.FaultLeavesEverythingElse := by
  intro s t a h hresp hfault
  rcases (stepOutcome_of_step h).refuses_or_answersNoFault with ⟨q, st, info, hrefused⟩ | hno
  · obtain ⟨rest, hr, rfl⟩ := hrefused.eq
    obtain rfl := List.singleton_inj.mp (List.append_cancel_left hresp)
    exact ⟨hrefused.unheld, q, rest, info, hr, rfl⟩
  · exact absurd hfault (by rw [hno a hresp]; decide)

end

section
/-! PROOFS. The state at power-on (R230): the base case of the two invariants. -/

namespace Sys2Proof.Machine

/-- Reading RES while RES_VALID is clear faults, whatever RES holds (R25). -/
theorem State.readRes_of_not_resValid {s : State} (h : s.resValid = false) : s.readRes = .error .resNotValid := by
  simp [State.readRes, h]

/-- Before the first response the records agree where they are all at rest (R26, R33). -/
theorem RecordsAgree.of_no_response {s : State} (hresp : s.responses = []) (hlog : s.errlog = []) (herr : s.err = .ok)
    (hfaulted : s.faulted = false) : RecordsAgree s where
  errlog := by rw [hlog, hresp]; rfl
  err := by rw [herr, hresp]; rfl
  faulted := by rw [hfaulted, hresp]; rfl

/-- At power-on nothing is held, the panel is `Uninitialized`, and the framebuffer lists no byte. -/
theorem State.reset_legal : Legal State.reset :=
  .of_unheld State.reset_memory_wf rfl DState.noConfusion

theorem State.reset_recordsAgree : RecordsAgree State.reset :=
  .of_no_response rfl rfl rfl rfl

end Sys2Proof.Machine
end

section
/-! PROOFS. The obligations about power-on. -/

open Sys2Proof Sys2Proof.Machine

/-- Settles O43, the base case of O41 and O42. -/
theorem powerOnMeetsTheInvariants : Obligations.PowerOnMeetsTheInvariants :=
  ⟨State.reset_legal, State.reset_recordsAgree⟩

/-- Settles O44: each register is the one the power-on state is built with, and RES faults as RES_VALID is clear. -/
theorem powerOnState : Obligations.PowerOnState :=
  ⟨rfl, rfl, rfl, rfl, rfl, rfl, rfl, rfl, rfl, rfl, State.readRes_of_not_resValid rfl⟩

end
